-- ==== Sys2Proof/Word.lean ====
section
/-! DEFINITION. The widths of the machine (00_scope.md R6), each under the spec's name for what it holds. -/

namespace Sys2Proof

/-- A memory cell, an instruction word, a stack entry or a program counter: 16 bits (R6). -/
abbrev Word := BitVec 16

/-- A register's contents, an ALU operand or result, a literal or an address: 15 bits, 0..32767 (R6, R21, R50). -/
abbrev Value := BitVec 15

/-- A byte of the input or output port (R33, R34) or of the image (R52): 8 bits. -/
abbrev Byte := BitVec 8

/-- A register's index, r0 to r7 (R21). -/
abbrev RegIdx := Fin 8

end Sys2Proof
end

