-- ==== Sys2Proof/Syntax.lean ====
section
/-! DEFINITION. The instructions of VIRT-22 as syntax: 30_encoding.md R73 (operand kinds), R75 (operand classes),
R80 (the closed set of 22 opcodes). -/

namespace Sys2Proof

/-- The class of one operand word (R75). Every 16-bit word falls into exactly one. -/
inductive Operand where
  /-- 0..32767: the value itself. -/
  | literal (v : Value)
  /-- 32768..32775: register `r`. -/
  | register (r : RegIdx)
  /-- 32776..65535: no meaning. The raw word is kept, because the stop record reports it (R224). -/
  | invalid (w : Word)
  deriving DecidableEq, Repr

/-- The kind of an operand position (R73): D, V or T. -/
inductive OperandKind where
  | dest
  | value
  | target
  deriving DecidableEq, Repr

/-- One constructor per row of the opcode map (R80), its operands in the order of their words (R73). An operand
is kept as it was fetched: what its class means at its position is settled when the instruction resolves it (R104). -/
inductive Instr where
  | halt
  | set (r a : Operand)
  | push (a : Operand)
  | pop (r : Operand)
  | eq (r a b : Operand)
  | gt (r a b : Operand)
  | jmp (t : Operand)
  | jt (a t : Operand)
  | jf (a t : Operand)
  | add (r a b : Operand)
  | mult (r a b : Operand)
  | mod (r a b : Operand)
  | and (r a b : Operand)
  | or (r a b : Operand)
  | not (r a : Operand)
  | rmem (r a : Operand)
  | wmem (a b : Operand)
  | call (t : Operand)
  | ret
  | out (a : Operand)
  | inp (r : Operand)
  | noop
  deriving DecidableEq, Repr

/-- The operands of an instruction with their kinds, operand 1 first (R73). -/
def Instr.operands : Instr → List (OperandKind × Operand)
  | .halt => []
  | .set r a => [(.dest, r), (.value, a)]
  | .push a => [(.value, a)]
  | .pop r => [(.dest, r)]
  | .eq r a b => [(.dest, r), (.value, a), (.value, b)]
  | .gt r a b => [(.dest, r), (.value, a), (.value, b)]
  | .jmp t => [(.target, t)]
  | .jt a t => [(.value, a), (.target, t)]
  | .jf a t => [(.value, a), (.target, t)]
  | .add r a b => [(.dest, r), (.value, a), (.value, b)]
  | .mult r a b => [(.dest, r), (.value, a), (.value, b)]
  | .mod r a b => [(.dest, r), (.value, a), (.value, b)]
  | .and r a b => [(.dest, r), (.value, a), (.value, b)]
  | .or r a b => [(.dest, r), (.value, a), (.value, b)]
  | .not r a => [(.dest, r), (.value, a)]
  | .rmem r a => [(.dest, r), (.value, a)]
  | .wmem a b => [(.value, a), (.value, b)]
  | .call t => [(.target, t)]
  | .ret => []
  | .out a => [(.value, a)]
  | .inp r => [(.dest, r)]
  | .noop => []

/-- Instruction length in words, `1 + arity` (R81). -/
def Instr.length (i : Instr) : Nat := 1 + i.operands.length

end Sys2Proof
end

