-- ==== Sys2Proof/Decode.lean ====
section
/-! DEFINITION. Decoding and encoding: operand words (30_encoding.md R75), the opcode map (R80), operand kinds and
length (R73, R81), illegal opcodes (R82). -/

namespace Sys2Proof

/-- `zext_16(v)`: the same number on 16 bits (R8). -/
def valueWord (v : Value) : Word := v.setWidth 16

/-- The raw word that names register `r`: 32768 + r (R21). -/
def regWord (r : RegIdx) : Word := BitVec.ofNat 16 (32768 + r.val)

/-- The raw operand word of an operand (R75). -/
def Operand.word : Operand → Word
  | .literal v => valueWord v
  | .register r => regWord r
  | .invalid w => w

/-- The class of an operand word, by its value range (R75). -/
def classify (w : Word) : Operand :=
  if w.toNat ≤ 32767 then .literal (w.setWidth 15)
  else if h : w.toNat ≤ 32775 then .register ⟨w.toNat - 32768, by omega⟩
  else .invalid w

/-- Why a run of words is no instruction. -/
inductive DecodeError where
  /-- There is no opcode word: nothing could be fetched (R102). -/
  | noOpcode
  /-- The opcode word lies in 22..65535 (R71, R82). -/
  | invalidOpcode (w0 : Word)
  /-- Operand word `k` of the opcode `w0` is missing, the lowest such `k` (R103). -/
  | missingOperand (w0 : Word) (k : Nat)
  deriving DecidableEq, Repr

/-- The operand kinds of an opcode number (R73), and `none` for a number that is no opcode (R71). -/
def opcodeKinds : Nat → Option (List OperandKind)
  | 0 => some []
  | 1 => some [.dest, .value]
  | 2 => some [.value]
  | 3 => some [.dest]
  | 4 => some [.dest, .value, .value]
  | 5 => some [.dest, .value, .value]
  | 6 => some [.target]
  | 7 => some [.value, .target]
  | 8 => some [.value, .target]
  | 9 => some [.dest, .value, .value]
  | 10 => some [.dest, .value, .value]
  | 11 => some [.dest, .value, .value]
  | 12 => some [.dest, .value, .value]
  | 13 => some [.dest, .value, .value]
  | 14 => some [.dest, .value]
  | 15 => some [.dest, .value]
  | 16 => some [.value, .value]
  | 17 => some [.target]
  | 18 => some []
  | 19 => some [.value]
  | 20 => some [.dest]
  | 21 => some []
  | _ => none

/-- `arity(op)`: how many operand words follow the opcode word (R81), 0 for a word that is no opcode. -/
def arity (w0 : Word) : Nat := ((opcodeKinds w0.toNat).getD []).length

/-- What decoding answers: the instruction and the words after it, or why there is none. -/
abbrev Decoded := Except DecodeError (Instr × List Word)

/-- Format F1: one operand word (R72). -/
def formatOne (w0 : Word) (mk : Operand → Instr) : List Word → Decoded
  | [] => .error (.missingOperand w0 1)
  | w1 :: rest => .ok (mk (classify w1), rest)

/-- Format F2: two operand words (R72). -/
def formatTwo (w0 : Word) (mk : Operand → Operand → Instr) : List Word → Decoded
  | [] => .error (.missingOperand w0 1)
  | [_] => .error (.missingOperand w0 2)
  | w1 :: w2 :: rest => .ok (mk (classify w1) (classify w2), rest)

/-- Format F3: three operand words (R72). -/
def formatThree (w0 : Word) (mk : Operand → Operand → Operand → Instr) : List Word → Decoded
  | [] => .error (.missingOperand w0 1)
  | [_] => .error (.missingOperand w0 2)
  | [_, _] => .error (.missingOperand w0 3)
  | w1 :: w2 :: w3 :: rest => .ok (mk (classify w1) (classify w2) (classify w3), rest)

/-- Decode the instruction at the head of a run of words. The opcode word is compared whole (R71) with the
numbers of the opcode map (R80). Total: every run of words is an instruction or is rejected by name. -/
def decode : List Word → Decoded
  | [] => .error .noOpcode
  | w0 :: ws =>
    match w0.toNat with
    | 0 => .ok (.halt, ws)
    | 1 => formatTwo w0 .set ws
    | 2 => formatOne w0 .push ws
    | 3 => formatOne w0 .pop ws
    | 4 => formatThree w0 .eq ws
    | 5 => formatThree w0 .gt ws
    | 6 => formatOne w0 .jmp ws
    | 7 => formatTwo w0 .jt ws
    | 8 => formatTwo w0 .jf ws
    | 9 => formatThree w0 .add ws
    | 10 => formatThree w0 .mult ws
    | 11 => formatThree w0 .mod ws
    | 12 => formatThree w0 .and ws
    | 13 => formatThree w0 .or ws
    | 14 => formatTwo w0 .not ws
    | 15 => formatTwo w0 .rmem ws
    | 16 => formatTwo w0 .wmem ws
    | 17 => formatOne w0 .call ws
    | 18 => .ok (.ret, ws)
    | 19 => formatOne w0 .out ws
    | 20 => formatOne w0 .inp ws
    | 21 => .ok (.noop, ws)
    | _ => .error (.invalidOpcode w0)

/-- The opcode word of an instruction (R80). -/
def Instr.opcode : Instr → Word
  | .halt => 0
  | .set _ _ => 1
  | .push _ => 2
  | .pop _ => 3
  | .eq _ _ _ => 4
  | .gt _ _ _ => 5
  | .jmp _ => 6
  | .jt _ _ => 7
  | .jf _ _ => 8
  | .add _ _ _ => 9
  | .mult _ _ _ => 10
  | .mod _ _ _ => 11
  | .and _ _ _ => 12
  | .or _ _ _ => 13
  | .not _ _ => 14
  | .rmem _ _ => 15
  | .wmem _ _ => 16
  | .call _ => 17
  | .ret => 18
  | .out _ => 19
  | .inp _ => 20
  | .noop => 21

/-- The words of an instruction: the opcode word, then the operand words in order (R70, R72). -/
def encode (i : Instr) : List Word := i.opcode :: i.operands.map fun p => p.2.word

/-- The four words of a number whose bit 0 is the least significant bit of the first word, the bits from `nbits`
up taken as zero. -/
def tableWords (nbits w : Nat) : List Word :=
  let v := w % 2 ^ nbits
  [BitVec.ofNat 16 v, BitVec.ofNat 16 (v / 65536), BitVec.ofNat 16 (v / 65536 ^ 2), BitVec.ofNat 16 (v / 65536 ^ 3)]

/-- The instruction this decoder reads from an instruction whose bits are `w`, numbered as spec/opcode_table.json
numbers them. -/
def decodeTableWord (nbits w : Nat) : Option Instr :=
  match decode (tableWords nbits w) with
  | .ok (i, _) => some i
  | .error _ => none

/-- Pairs of image bytes as words, low byte first (R52), and `none` for an odd number of bytes. -/
def imageWords : List Byte → Option (List Word)
  | [] => some []
  | [_] => none
  | lo :: hi :: rest => (imageWords rest).map fun ws => BitVec.ofNat 16 (lo.toNat + 256 * hi.toNat) :: ws

end Sys2Proof
end

