-- ==== Sys2Proof/Config.lean ====
section
/-! DEFINITION. What is fixed for one machine (00_scope.md R6) and the model's free value (10_state.md R32). -/

namespace Sys2Proof

/-- The parameters the spec leaves OPEN and a machine fixes. STACK_CAPACITY is `none` (unbounded) or a positive
count (R6, R130). INPUT_SOURCE is data of a run and stands in State's `input`. -/
structure Config where
  stackCapacity : Option Nat
  deriving DecidableEq, Repr

/-- The source's own reading, a stack that is "unbounded" (R28, 92_eei_decisions.md D9). -/
def Config.unbounded : Config := { stackCapacity := none }

/-- The value `in_dest` holds once an IN has completed: R32 leaves it unspecified, so it has no body and no proof
can know it. The argument is State's `freeCount`. DESIGN CHOICE of form (assumption log 5): safe. -/
opaque Config.freeInDest : Nat → RegIdx

end Sys2Proof
end

