-- ==== Sys2Proof/Machine/State.lean ====
section
/-! DEFINITION. The state of the machine (10_state.md R20), its value right after reset (R40), and the reasons a
step can stop. -/

namespace Sys2Proof.Machine

/-- The run state (R31). -/
inductive Run where
  | running
  | waitInput
  | halted
  | faulted
  deriving DecidableEq, Repr

/-- Every stop the block can produce (60_exceptions.md R225). The numbers are `StopCode.bits`. -/
inductive StopCode where
  | none
  | halt
  | retEmpty
  | endOfMemory
  | invalidOpcode
  | invalidOperand
  | invalidDestination
  | divisionByZero
  | stackUnderflow
  | fetchOutOfRange
  | stackOverflow
  deriving DecidableEq, Repr

/-- The stop record (R37). `code` is stop_code, `pc` stop_pc, `word` stop_word, `index` stop_index. -/
structure StopRecord where
  code  : StopCode
  pc    : Word
  word  : Word
  index : BitVec 2
  deriving DecidableEq, Repr

/-- All fields 0: the record while the block runs or waits (R37, R40). -/
def StopRecord.zero : StopRecord := { code := .none, pc := 0, word := 0, index := 0 }

/-- The attached memory (R35, 20_memory.md R50, R51): pairs of a word address and that cell's 16 bits, addresses
strictly rising, no cell listed that holds 0. An address that is not listed holds 0 (R40). The smallest unit the
spec addresses is the 16-bit cell (R50), so a pair's second part is a cell and not a byte (assumption log 2). -/
abbrev Memory := List (Nat × Word)

/-- The canonical form of memory, with no cell outside 0..32767 (R50). -/
abbrev Memory.wf (m : Memory) : Prop :=
  m.Pairwise (fun c d => c.1 < d.1) ∧ ∀ c ∈ m, c.1 < 32768 ∧ c.2 ≠ 0

/-- The state of the machine (R20). -/
structure State where
  /-- The program counter, a word address 0..32768 (R23). -/
  pc : Word
  /-- The register file, r0 to r7 (R21). -/
  regs : Vector Value 8
  /-- The stack, its top at the end (R28). -/
  stack : List Word
  /-- The run state (R31). -/
  run : Run
  /-- The stop record (R37). -/
  stop : StopRecord
  /-- `in_dest`, the destination register of a waiting IN (R32). -/
  inDest : RegIdx
  /-- The attached memory (R35). -/
  mem : Memory
  /-- The bytes of INPUT_SOURCE that have not been taken, in the host's order (R34, assumption log 4). -/
  input : List Byte
  /-- The bytes sent on the output port, in execution order (R33). -/
  output : List Byte
  /-- The machine's parameters; nothing writes them (R6, assumption log 3). -/
  cfg : Config
  /-- The model's own field: how many free values have been drawn (assumption log 5). -/
  freeCount : Nat
  deriving DecidableEq, Repr

/-- Why `step` answers no next state. None of these is a fault of the hardware: those are states of the machine
(`run = faulted`, R224). -/
inductive Fault where
  /-- Raised by `step` when the block is HALTED or FAULTED: it takes no further step (R38). Safe: the model makes
  no move where the hardware makes none (assumption log 6). -/
  | stopped
  /-- Raised by `completeIn` in WAIT_INPUT when the host offers no byte: the block is stuck, and the one enabled
  move needs a byte (R34, R100). Safe: no byte is assumed (assumption log 7). -/
  | awaitingInput
  /-- Raised by `decodeStop` when a running block's pc is above 32768, which R23 rules out. Safe: no run reaches
  such a state (assumption log 8). -/
  | pcOutOfRange
  deriving DecidableEq, Repr

/-- Why an instruction has no meaning. -/
inductive Refusal where
  /-- Raised by `exec`'s arm of an instruction that is not modelled yet; no arm does so now. Safe: nothing is
  claimed of such an instruction. -/
  | notModelled (mnemonic : String)
  deriving DecidableEq, Repr

/-- The machine right after reset (R40), with no image placed: every memory cell is 0. `inDest` (R40:
unspecified), `input`, `cfg` and `freeCount` are DESIGN CHOICE (assumption log 3, 4, 5). -/
def State.reset : State where
  pc := 0
  regs := Vector.replicate 8 0
  stack := []
  run := .running
  stop := StopRecord.zero
  inDest := 0
  mem := []
  input := []
  output := []
  cfg := Config.unbounded
  freeCount := 0

end Sys2Proof.Machine
end

