-- ==== Sys2Proof/Machine/Ops.lean ====
section
/-! DEFINITION. The named operations over registers, memory, the stack and the ports, and the two ways a run stops:
`stopClean` (60_exceptions.md R223) and `raise` (R224). There is no return from a stop (R229). -/

namespace Sys2Proof.Machine

/-- What an instruction or a step answers. -/
abbrev StepOutcome := Host.Outcome State Fault Refusal

/-! ## Memory -/

/-- The content of cell `a`; a cell that is not listed holds 0 (20_memory.md R53, 10_state.md R40). -/
def Memory.read : Memory → Nat → Word
  | [], _ => 0
  | (b, w) :: rest, a => if b = a then w else Memory.read rest a

/-- Set cell `a` to `v`, keeping the canonical form (R54). -/
def Memory.write : Memory → Nat → Word → Memory
  | [], a, v => if v = 0 then [] else [(a, v)]
  | (b, w) :: rest, a, v =>
    if a < b then
      if v = 0 then (b, w) :: rest else (a, v) :: (b, w) :: rest
    else if a = b then
      if v = 0 then rest else (a, v) :: rest
    else (b, w) :: Memory.write rest a v

/-- The memory that holds `ws` from cell `a` up and 0 elsewhere (70_reset_and_hazards.md R262). -/
def Memory.ofWords (a : Nat) : List Word → Memory
  | [] => []
  | w :: ws => if w = 0 then Memory.ofWords (a + 1) ws else (a, w) :: Memory.ofWords (a + 1) ws

/-- Write a run of words to consecutive cells from `a` up. -/
def Memory.place (m : Memory) (a : Nat) : List Word → Memory
  | [] => m
  | w :: ws => Memory.place (m.write a w) (a + 1) ws

/-- `MemRead(a)` (R53). The address is 15 bits, so no address outside the space can be given. -/
def State.memRead (s : State) (a : Value) : Word := s.mem.read a.toNat

/-- `MemWrite(a, v)`: 15-bit `v`, bit 15 of the cell cleared (R54). -/
def State.memWrite (a v : Value) (s : State) : State := { s with mem := s.mem.write a.toNat (valueWord v) }

/-! ## Registers and pc -/

/-- `R[i]` (10_state.md R26). -/
def State.readReg (s : State) (r : RegIdx) : Value := s.regs[r.val]

/-- `write_destination`, the one path of every register write: stores `v mod 32768` (R25). -/
def State.writeReg (r : RegIdx) (v : Nat) (s : State) : State := { s with regs := s.regs.set r.val (BitVec.ofNat 15 v) }

/-- `pc <- target` (R8). -/
def State.setPc (w : Word) (s : State) : State := { s with pc := w }

/-- The address `n` words after the instruction's own, `next` when `n` is the instruction's length (40_cycle.md
R105). A meaning is given the state with `pc = ia`. -/
def State.after (s : State) (n : Nat) : Word := s.pc + BitVec.ofNat 16 n

/-- `pc <- next`, for an instruction of `n` words (R105). -/
def State.advance (n : Nat) (s : State) : State := s.setPc (s.after n)

/-! ## Stack controller -/

/-- `|S| = N` for a finite STACK_CAPACITY of `N` (41_data_stack.md R130). -/
def State.stackFull (s : State) : Bool :=
  match s.cfg.stackCapacity with
  | none => false
  | some n => s.stack.length == n

/-- `S <- S ++ [v]` (R130). -/
def State.pushEntry (v : Word) (s : State) : State := { s with stack := s.stack ++ [v] }

/-- `S` without its top (R131). -/
def State.dropTop (s : State) : State := { s with stack := s.stack.dropLast }

/-- `Pop()`: `none` on an empty stack, else the top entry and the state without it (R131). -/
def State.popEntry (s : State) : Option (Word × State) :=
  match s.stack.getLast? with
  | none => none
  | some e => some (e, s.dropTop)

/-! ## Ports -/

/-- `Out(b)`: one output event, after all earlier ones (10_state.md R33). -/
def State.sendByte (b : Byte) (s : State) : State := { s with output := s.output ++ [b] }

/-! ## Stops -/

/-- `raise`'s state (60_exceptions.md R224): `run` and the stop record change and nothing else. The given state is
the one before the instruction (`pc = ia`), so no effect of the step survives (40_cycle.md R107). -/
def State.raised (c : StopCode) (w : Word) (k : Nat) (s : State) : State :=
  { s with run := .faulted, stop := { code := c, pc := s.pc, word := w, index := BitVec.ofNat 2 k } }

/-- TAKING A FAULT, the one shared operation: `raise c(ia, w, k)` (R224). The next state has `run = FAULTED`. -/
def raise (c : StopCode) (w : Word) (k : Nat) (s : State) : StepOutcome := .next (s.raised c w k)

/-- `stop`'s state (R223): `stop_pc` is the given state's pc, `stop_index` is 0, `newPc` is the pc the stop leaves. -/
def State.stopped (c : StopCode) (w newPc : Word) (s : State) : State :=
  { s with pc := newPc, run := .halted, stop := { code := c, pc := s.pc, word := w, index := 0 } }

/-- A clean stop, the one shared operation: `stop c(ia, w, 0)` (R223). The next state has `run = HALTED`. -/
def stopClean (c : StopCode) (w newPc : Word) (s : State) : StepOutcome := .next (s.stopped c w newPc)

/-- `Push(v)` by the instruction whose opcode word is `op`, then `k` (R130). A full stack raises STACK_OVERFLOW
before anything changes. -/
def withPush (op v : Word) (s : State) (k : State → StepOutcome) : StepOutcome :=
  if s.stackFull then raise .stackOverflow op 0 s else k (s.pushEntry v)

end Sys2Proof.Machine
end

