-- ==== Sys2Proof/Machine/Flags.lean ====
section
/-! DEFINITION. There are no flags (10_state.md R29): EQ and GT write 0 or 1 into a register, JT and JF test an
operand value. Those two readings of a value as a condition stand here. -/

namespace Sys2Proof.Machine

/-- The result of a comparison: 1 if it holds, else 0 (R29, 42_alu.md R151). -/
def conditionValue (b : Bool) : Value := if b then 1 else 0

/-- What JT and JF test: any non-zero value is true (43_control.md R182, R183). -/
def testsTrue (v : Value) : Bool := v != 0

end Sys2Proof.Machine
end

