-- ==== Sys2Proof/Machine/Operands.lean ====
section
/-! DEFINITION. Operand resolution (30_encoding.md R76, R77, R78; 40_cycle.md R104), every operand form. -/

namespace Sys2Proof.Machine

/-- `resolve_value(w)`, `none` where it raises (R76). -/
def resolveValue (s : State) : Operand → Option Value
  | .literal v => some v
  | .register r => some (s.readReg r)
  | .invalid _ => none

/-- `resolve_address(w)`, `none` where it raises (R77): a literal is the address itself, a register gives the
address it holds. -/
def resolveAddress (s : State) : Operand → Option Value
  | .literal v => some v
  | .register r => some (s.readReg r)
  | .invalid _ => none

/-- `dest(w)`, `none` where it raises (R78). It reads nothing. -/
def resolveDest : Operand → Option RegIdx
  | .literal _ => none
  | .register r => some r
  | .invalid _ => none

/-- Resolve operand `k` as a value and go on with it, or raise INVALID_OPERAND(ia, w, k) (R76). -/
def withValue (k : Nat) (o : Operand) (s : State) (cont : Value → StepOutcome) : StepOutcome :=
  match resolveValue s o with
  | some v => cont v
  | none => raise .invalidOperand o.word k s

/-- Resolve operand `k` as a target and go on with it, or raise INVALID_OPERAND(ia, w, k) (R77). -/
def withAddress (k : Nat) (o : Operand) (s : State) (cont : Value → StepOutcome) : StepOutcome :=
  match resolveAddress s o with
  | some v => cont v
  | none => raise .invalidOperand o.word k s

/-- Resolve operand `k` as a destination and go on with it, or raise INVALID_DESTINATION(ia, w, k) (R78). -/
def withDest (k : Nat) (o : Operand) (s : State) (cont : RegIdx → StepOutcome) : StepOutcome :=
  match resolveDest o with
  | some r => cont r
  | none => raise .invalidDestination o.word k s

end Sys2Proof.Machine
end

