-- ==== Sys2Proof/Machine/Alu.lean ====
section
/-! DEFINITION. The 15-bit ALU and its eight instructions (42_alu.md). -/

namespace Sys2Proof.Machine

/-- The operations of the ALU (R151). -/
inductive AluOp where
  | eq
  | gt
  | add
  | mult
  | mod
  | and
  | or
  | not
  deriving DecidableEq, Repr

/-- `alu(op, a, b)` (R151). Sums and products are computed exactly, then taken mod 32768; NOT has no `b`. -/
def alu : AluOp → Value → Value → Value
  | .eq, a, b => conditionValue (a == b)
  | .gt, a, b => conditionValue (decide (b.toNat < a.toNat))
  | .add, a, b => BitVec.ofNat 15 ((a.toNat + b.toNat) % 32768)
  | .mult, a, b => BitVec.ofNat 15 ((a.toNat * b.toNat) % 32768)
  | .mod, a, b => BitVec.ofNat 15 (a.toNat % b.toNat)
  | .and, a, b => a &&& b
  | .or, a, b => a ||| b
  | .not, a, _ => ~~~a

/-- Write the ALU's result to `r` and advance past an instruction of `n` words (R150). -/
def aluWrite (op : AluOp) (n : Nat) (r : RegIdx) (a b : Value) (s : State) : StepOutcome :=
  .next ((s.writeReg r (alu op a b).toNat).advance n)

/-- The shape of the two-operand ALU instructions: resolve `r`, `a`, `b` in order, then act (40_cycle.md R104). -/
def aluBinary (r a b : Operand) (s : State) (act : RegIdx → Value → Value → StepOutcome) : StepOutcome :=
  withDest 1 r s fun d => withValue 2 a s fun x => withValue 3 b s fun y => act d x y

/-- EQ (R152). -/
def execEq (r a b : Operand) (s : State) : StepOutcome :=
  aluBinary r a b s fun d x y => aluWrite .eq 4 d x y s

/-- GT, unsigned (R153). -/
def execGt (r a b : Operand) (s : State) : StepOutcome :=
  aluBinary r a b s fun d x y => aluWrite .gt 4 d x y s

/-- ADD (R154). -/
def execAdd (r a b : Operand) (s : State) : StepOutcome :=
  aluBinary r a b s fun d x y => aluWrite .add 4 d x y s

/-- MULT (R155). -/
def execMult (r a b : Operand) (s : State) : StepOutcome :=
  aluBinary r a b s fun d x y => aluWrite .mult 4 d x y s

/-- MOD: a zero divisor raises DIVISION_BY_ZERO before anything is written (R156). -/
def execMod (r a b : Operand) (s : State) : StepOutcome :=
  aluBinary r a b s fun d x y => if y = 0 then raise .divisionByZero 11 0 s else aluWrite .mod 4 d x y s

/-- AND (R157). -/
def execAnd (r a b : Operand) (s : State) : StepOutcome :=
  aluBinary r a b s fun d x y => aluWrite .and 4 d x y s

/-- OR (R158). -/
def execOr (r a b : Operand) (s : State) : StepOutcome :=
  aluBinary r a b s fun d x y => aluWrite .or 4 d x y s

/-- NOT (R159). -/
def execNot (r a : Operand) (s : State) : StepOutcome :=
  withDest 1 r s fun d => withValue 2 a s fun x => aluWrite .not 3 d x 0 s

end Sys2Proof.Machine
end

