-- ==== Sys2Proof/Machine/Control.lean ====
section
/-! DEFINITION. HALT, JMP, JT, JF, CALL, RET, NOOP (43_control.md). -/

namespace Sys2Proof.Machine

/-- HALT: a clean stop; pc keeps `next` (R180). -/
def execHalt (s : State) : StepOutcome := stopClean .halt 0 (s.after 1) s

/-- JMP (R181). -/
def execJmp (t : Operand) (s : State) : StepOutcome :=
  withAddress 1 t s fun x => .next (s.setPc (valueWord x))

/-- JT: the target is resolved whether or not the jump is taken (R182). -/
def execJt (a t : Operand) (s : State) : StepOutcome :=
  withValue 1 a s fun v => withAddress 2 t s fun x =>
    .next (if testsTrue v then s.setPc (valueWord x) else s.advance 3)

/-- JF: the target is resolved whether or not the jump is taken (R183). -/
def execJf (a t : Operand) (s : State) : StepOutcome :=
  withValue 1 a s fun v => withAddress 2 t s fun x =>
    .next (if testsTrue v then s.advance 3 else s.setPc (valueWord x))

/-- CALL: push `next`, then jump (R184). -/
def execCall (t : Operand) (s : State) : StepOutcome :=
  withAddress 1 t s fun x => withPush 17 (s.after 2) s fun u => .next (u.setPc (valueWord x))

/-- RET: pop into pc, or a clean stop on an empty stack (R185). -/
def execRet (s : State) : StepOutcome :=
  match s.popEntry with
  | none => stopClean .retEmpty 18 (s.after 1) s
  | some (e, t) => .next (t.setPc e)

/-- NOOP (R186). -/
def execNoop (s : State) : StepOutcome := .next (s.advance 1)

end Sys2Proof.Machine
end

