-- ==== Sys2Proof/Machine/DataStack.lean ====
section
/-! DEFINITION. SET, PUSH, POP (41_data_stack.md). -/

namespace Sys2Proof.Machine

/-- SET (R133). -/
def execSet (r a : Operand) (s : State) : StepOutcome :=
  withDest 1 r s fun d => withValue 2 a s fun x => .next ((s.writeReg d x.toNat).advance 3)

/-- PUSH (R134). -/
def execPush (a : Operand) (s : State) : StepOutcome :=
  withValue 1 a s fun x => withPush 2 (valueWord x) s fun t => .next (t.advance 2)

/-- POP: an empty stack raises STACK_UNDERFLOW; an entry is stored mod 32768 (R135, R136). -/
def execPop (r : Operand) (s : State) : StepOutcome :=
  withDest 1 r s fun d =>
    match s.popEntry with
    | none => raise .stackUnderflow 3 0 s
    | some (e, t) => .next ((t.writeReg d e.toNat).advance 2)

end Sys2Proof.Machine
end

