-- ==== Sys2Proof/Machine/MemoryIo.lean ====
section
/-! DEFINITION. RMEM, WMEM, OUT, IN (44_memory_io.md). -/

namespace Sys2Proof.Machine

/-- RMEM: the 16-bit cell is stored mod 32768 (R200). -/
def execRmem (r a : Operand) (s : State) : StepOutcome :=
  withDest 1 r s fun d => withValue 2 a s fun x => .next ((s.writeReg d (s.memRead x).toNat).advance 3)

/-- WMEM (R201). -/
def execWmem (a b : Operand) (s : State) : StepOutcome :=
  withValue 1 a s fun x => withValue 2 b s fun y => .next ((s.memWrite x y).advance 3)

/-- OUT: the low 8 bits are sent (R202). -/
def execOut (a : Operand) (s : State) : StepOutcome :=
  withValue 1 a s fun x => .next ((s.sendByte (BitVec.ofNat 8 (x.toNat % 256))).advance 2)

/-- IN's first move: latch the destination and wait; pc stays at the instruction (R203). -/
def State.startIn (d : RegIdx) (s : State) : State := { s with inDest := d, run := .waitInput }

/-- IN (R203). -/
def execIn (r : Operand) (s : State) : StepOutcome :=
  withDest 1 r s fun d => .next (s.startIn d)

/-- The state after byte `c` has completed a waiting IN, `rest` being what the host still has to offer (R203).
Outside the wait `in_dest` is unspecified (R32): it gets a free value. -/
def State.finishIn (c : Byte) (rest : List Byte) (s : State) : State :=
  { (s.writeReg s.inDest c.toNat).advance 2 with
    run := .running, input := rest, inDest := Config.freeInDest s.freeCount, freeCount := s.freeCount + 1 }

/-- IN's second move, enabled only when the host offers a byte (R203, R34). -/
def completeIn (s : State) : StepOutcome :=
  match s.input with
  | [] => .fault .awaitingInput
  | c :: rest => .next (s.finishIn c rest)

end Sys2Proof.Machine
end

