-- ==== Sys2Proof/Machine/Fetch.lean ====
section
/-! DEFINITION. The fetch of an instruction's words and the stops of fetch and decode (40_cycle.md R101 to R103). -/

namespace Sys2Proof.Machine

/-- Up to `n` words from cell `a` up, ending at the last cell, 32767 (R103). -/
def wordsFrom (m : Memory) (a : Nat) : Nat → List Word
  | 0 => []
  | n + 1 => if a < 32768 then m.read a :: wordsFrom m (a + 1) n else []

/-- The words fetched at `ia`: the opcode word and as many operand words as its arity says (R101, R103). -/
def fetch (m : Memory) (ia : Nat) : List Word := wordsFrom m ia (1 + arity (m.read ia))

/-- The stop that a fetch or decode failure makes: END_OF_MEMORY (R102), INVALID_OPCODE or FETCH_OUT_OF_RANGE
(R103). Nothing is fetched at 32768 and above. -/
def decodeStop (e : DecodeError) (s : State) : StepOutcome :=
  match e with
  | .noOpcode => if s.pc.toNat = 32768 then stopClean .endOfMemory 0 s.pc s else .fault .pcOutOfRange
  | .invalidOpcode w0 => raise .invalidOpcode w0 0 s
  | .missingOperand w0 k => raise .fetchOutOfRange w0 k s

/-- Where `withFetchWord` places an instruction: at the pc if four words fit there, else at 0. -/
def fetchBase (s : State) : Word := if s.pc.toNat + 4 ≤ 32768 then s.pc else 0

end Sys2Proof.Machine
end

