-- ==== Sys2Proof/Machine/Step.lean ====
section
/-! DEFINITION. One step (40_cycle.md R100, R108). -/

namespace Sys2Proof.Machine

/-- One move of the block. RUNNING: one whole instruction (R100, R108). WAIT_INPUT: the completion of the IN
(44_memory_io.md R203). HALTED and FAULTED: no move (10_state.md R38). -/
def step (s : State) : Host.Outcome State Fault Refusal :=
  match s.run with
  | .running =>
    match decode (fetch s.mem s.pc.toNat) with
    | .ok (i, _) => exec i s
    | .error e => decodeStop e s
  | .waitInput => completeIn s
  | .halted => .fault .stopped
  | .faulted => .fault .stopped

/-- `s` with the four words of `w` where `step` fetches its next instruction: memory holds them at the pc, and the
block is RUNNING. Where fewer than four cells are left at the pc, the pc becomes 0 (assumption log 10). -/
def State.withFetchWord (s : State) (nbits w : Nat) : State :=
  { s with
    pc := fetchBase s, run := .running, mem := s.mem.place (fetchBase s).toNat (tableWords nbits w) }

end Sys2Proof.Machine
end

