-- ==== Sys2Proof/Machine/HostPort.lean ====
section
/-! DEFINITION. What the host does to the block and sees of it (60_exceptions.md R237): reset and image load
(70_reset_and_hazards.md R260, R262), offering a byte (10_state.md R34), the status outputs (R37). None of it is a
step of the block. -/

namespace Sys2Proof.Machine

/-- The load errors, which belong to the host: no instruction executes (60_exceptions.md R226). -/
inductive LoadError where
  | malformedImage
  | imageTooLarge
  deriving DecidableEq, Repr

/-- The host codes of the load errors (R226). They never appear in the stop record. -/
def LoadError.bits : LoadError → BitVec 8
  | .malformedImage => 32
  | .imageTooLarge => 33

/-- The memory at reset release for an image: its words from address 0, low byte first, and 0 past them (R262);
an odd byte count or more than 32768 words is a load error (R226). For an image that is both, the spec does not say
which error is reported: here MALFORMED_IMAGE, DESIGN CHOICE (assumption log 19). -/
def loadImage (image : List Byte) : Except LoadError Memory :=
  match imageWords image with
  | none => .error .malformedImage
  | some ws => if ws.length ≤ 32768 then .ok (Memory.ofWords 0 ws) else .error .imageTooLarge

/-- Reset release with `m` as the memory the host has loaded: every element of the block's state takes its reset
value, whatever the block was doing (R260, R40). The machine's parameters stay. The input
not yet taken stays too, as the next run's input: the spec does not say what becomes of it (40_cycle.md R110), DESIGN
CHOICE (assumption log 20). -/
def State.applyReset (m : Memory) (s : State) : State :=
  { State.reset with mem := m, input := s.input, cfg := s.cfg, freeCount := s.freeCount }

/-- A launch of a machine with parameters `cfg` on an image and an INPUT_SOURCE (R36, R111). -/
def launch (cfg : Config) (image input : List Byte) : Except LoadError State :=
  match loadImage image with
  | .error e => .error e
  | .ok m => .ok { State.reset with mem := m, input := input, cfg := cfg }

/-- The host adds one byte to those it offers (R34). -/
def State.offerByte (c : Byte) (s : State) : State := { s with input := s.input ++ [c] }

/-- The request for a byte: asserted while `run = WAIT_INPUT` (R34). -/
def State.requestsInput (s : State) : Bool := s.run == .waitInput

/-- The code of `run` (10_state.md R31). -/
def Run.bits : Run → BitVec 2
  | .running => 0
  | .waitInput => 1
  | .halted => 2
  | .faulted => 3

/-- The code of a stop (60_exceptions.md R225). -/
def StopCode.bits : StopCode → BitVec 8
  | .none => 0
  | .halt => 1
  | .retEmpty => 2
  | .endOfMemory => 3
  | .invalidOpcode => 16
  | .invalidOperand => 17
  | .invalidDestination => 18
  | .divisionByZero => 19
  | .stackUnderflow => 20
  | .fetchOutOfRange => 21
  | .stackOverflow => 22

/-- The status outputs as the host reads them (R30, R37). -/
structure StatusOutputs where
  run       : BitVec 2
  stopCode  : BitVec 8
  stopPc    : Word
  stopWord  : Word
  stopIndex : BitVec 2
  deriving DecidableEq, Repr

/-- The host may read the status outputs at any time (R237). -/
def State.statusOutputs (s : State) : StatusOutputs where
  run := s.run.bits
  stopCode := s.stop.code.bits
  stopPc := s.stop.pc
  stopWord := s.stop.word
  stopIndex := s.stop.index

end Sys2Proof.Machine
end

