-- ==== Sys2Proof/WellFormed.lean ====
section
/-! DEFINITION. Two checks on an instruction: that it stands for one run of words (`wellFormed`), and that its
encoding is a legal one (`legal`, 30_encoding.md R82). -/

namespace Sys2Proof

/-- An operand stands for exactly one word: an `invalid` operand's word lies in 32776..65535 (R75). -/
def Operand.canonical : Operand → Bool
  | .literal _ => true
  | .register _ => true
  | .invalid w => decide (32776 ≤ w.toNat)

/-- Every operand is canonical. An instruction that only faults (an invalid operand, a literal destination) is
well formed too: the machine fetches it and takes its fault. -/
def Instr.wellFormed (i : Instr) : Bool := i.operands.all fun p => p.2.canonical

/-- The operand classes a position accepts (R76, R77, R78, R82). -/
def Operand.legalFor : OperandKind → Operand → Bool
  | .dest, .register _ => true
  | .dest, .literal _ => false
  | .dest, .invalid _ => false
  | .value, .literal _ => true
  | .value, .register _ => true
  | .value, .invalid _ => false
  | .target, .literal _ => true
  | .target, .register _ => true
  | .target, .invalid _ => false

/-- No operand raises INVALID_OPERAND or INVALID_DESTINATION (R82). -/
def Instr.legal (i : Instr) : Bool := i.operands.all fun p => p.2.legalFor p.1

end Sys2Proof
end

