-- ==== Sys2Proof/Safety.lean ====
section
/-! DEFINITION. The terms claims use: how a run ends (40_cycle.md R110), the invariant of the machine, which states
a run reaches, and the order in which bad operands are reported (R109). -/

namespace Sys2Proof.Machine

/-- A clean end of a run (R110). -/
def State.cleanEnd (s : State) : Prop := s.run = .halted

/-- A failed end of a run (R110). -/
def State.failedEnd (s : State) : Prop := s.run = .faulted

/-- The block waits and the host offers nothing: neither a clean nor a failed end (R110, 10_state.md R34). -/
def State.stuck (s : State) : Prop := s.run = .waitInput ∧ s.input = []

/-- The moves the spec enables: a step when RUNNING, and the completion of a waiting IN when the host offers a byte
(R100). -/
def State.moveEnabled (s : State) : Prop := s.run = .running ∨ (s.run = .waitInput ∧ s.input ≠ [])

/-- A safe run does not end in a fault: no state a run from `s` reaches is a failed end. `Reaches s t` says that
`t` is reached from `s` by zero or more steps. -/
inductive Reaches (s : State) : State → Prop where
  | start : Reaches s s
  | next {t u : State} : Reaches s t → step t = .next u → Reaches s u

/-- No failed end is reached from `s`. -/
def Safe (s : State) : Prop := ∀ t, Reaches s t → ¬ t.failedEnd

/-- The stop record agrees with `run`, and with the pc where the spec fixes it (10_state.md R37, 60_exceptions.md
R223 to R225, row by row). -/
def State.stopAgrees (s : State) : Bool :=
  match s.run with
  | .running => s.stop == StopRecord.zero
  | .waitInput => s.stop == StopRecord.zero
  | .halted =>
    s.stop.index == 0 &&
    match s.stop.code with
    | .halt => s.stop.word == 0 && s.pc == s.stop.pc + 1
    | .retEmpty => s.stop.word == 18 && s.pc == s.stop.pc + 1
    | .endOfMemory => s.stop.word == 0 && s.stop.pc == 32768 && s.pc == 32768
    | _ => false
  | .faulted =>
    s.pc == s.stop.pc && decide (s.pc.toNat ≤ 32767) &&
    match s.stop.code with
    | .invalidOpcode => decide (22 ≤ s.stop.word.toNat) && s.stop.index == 0
    | .invalidOperand => decide (32776 ≤ s.stop.word.toNat) && s.stop.index != 0
    | .invalidDestination =>
      (decide (s.stop.word.toNat ≤ 32767) || decide (32776 ≤ s.stop.word.toNat)) && s.stop.index == 1
    | .divisionByZero => s.stop.word == 11 && s.stop.index == 0
    | .stackUnderflow => s.stop.word == 3 && s.stop.index == 0
    | .fetchOutOfRange =>
      decide (s.stop.word.toNat ≤ 21) && s.stop.index != 0 && decide (s.pc.toNat + s.stop.index.toNat = 32768)
    | .stackOverflow => (s.stop.word == 2 || s.stop.word == 17) && s.stop.index == 0
    | _ => false

/-- The invariant of the machine: what the spec says holds in every state of a run. -/
structure State.Inv (s : State) : Prop where
  /-- Memory is in canonical form, inside 0..32767 (R50). -/
  memory : s.mem.wf
  /-- pc is 0..32768 (R23). -/
  pc : s.pc.toNat ≤ 32768
  /-- Every stack entry is 0..32768 (R28, R130). -/
  entries : ∀ e ∈ s.stack, e.toNat ≤ 32768
  /-- A finite STACK_CAPACITY is positive and holds the stack (R6, R130). -/
  capacity : ∀ n, s.cfg.stackCapacity = some n → 0 < n ∧ s.stack.length ≤ n
  /-- The stop record agrees with `run` (R37). -/
  stop : s.stopAgrees = true
  /-- A waiting IN stands at its own address, so both its words are in memory (R203). -/
  waiting : s.run = .waitInput → s.pc.toNat ≤ 32766

/-- The fault of one operand word at a position of kind `q`, by the word ranges of R82. -/
def badOperand : OperandKind → Word → Option StopCode
  | .dest, w => if 32768 ≤ w.toNat ∧ w.toNat ≤ 32775 then none else some .invalidDestination
  | .value, w => if w.toNat ≤ 32775 then none else some .invalidOperand
  | .target, w => if w.toNat ≤ 32775 then none else some .invalidOperand

/-- The first failing operand, counting from `k`, with its fault and its word (R104, R109 stage 4). -/
def firstBadOperand (k : Nat) : List (OperandKind × Word) → Option (StopCode × Word × Nat)
  | [] => none
  | (q, w) :: rest =>
    match badOperand q w with
    | some c => some (c, w, k)
    | none => firstBadOperand (k + 1) rest

/-- Instruction `i` raises fault `c` with stop_word `w` and stop_index `k`: stop_pc is the instruction's address, `run`
becomes FAULTED, and nothing else changes (40_cycle.md R107, 60_exceptions.md R224). -/
def Raises (i : Instr) (s : State) (c : StopCode) (w : Word) (k : BitVec 2) : Prop :=
  exec i s = .next { s with run := .faulted, stop := { code := c, pc := s.pc, word := w, index := k } }

/-- The stops that are an instruction's own (40_cycle.md R109 stage 5, 43_control.md R180): instruction `i` in state
`s` stops with the code and the run state given. -/
inductive OwnStop (s : State) : Instr → StopCode → Run → Prop where
  | halt : OwnStop s .halt .halt .halted
  | retEmpty : s.stack = [] → OwnStop s .ret .retEmpty .halted
  | divisionByZero {r a b : Operand} : resolveValue s b = some 0 → OwnStop s (.mod r a b) .divisionByZero .faulted
  | stackUnderflow {r : Operand} : s.stack = [] → OwnStop s (.pop r) .stackUnderflow .faulted
  | pushOverflow {a : Operand} : s.cfg.stackCapacity = some s.stack.length →
      OwnStop s (.push a) .stackOverflow .faulted
  | callOverflow {t : Operand} : s.cfg.stackCapacity = some s.stack.length →
      OwnStop s (.call t) .stackOverflow .faulted

/-- The fault of an operand that its position does not accept (30_encoding.md R76, R77, R78). -/
def operandFault : OperandKind → StopCode
  | .dest => .invalidDestination
  | .value => .invalidOperand
  | .target => .invalidOperand

/-- The faults of an instruction's operand resolution (40_cycle.md R104): operand `k + 1`, of kind `q`, raises its
fault with its own raw word when its position does not accept it and accepts every operand before it. -/
def ResolutionFaults (i : Instr) (s : State) : Prop :=
  ∀ (k : Nat) (q : OperandKind) (o : Operand), i.operands[k]? = some (q, o) → o.legalFor q = false →
    (∀ (j : Nat) (p : OperandKind × Operand), j < k → i.operands[j]? = some p → p.2.legalFor p.1 = true) →
    Raises i s (operandFault q) o.word (BitVec.ofNat 2 (k + 1))

/-- Between `s` and `t` register `r` has got the value `v`, the pc has moved on by `n` words, and nothing else has
changed: what an instruction with a destination register does. -/
structure WritesRegister (r : RegIdx) (v n : Nat) (s t : State) : Prop where
  result : (t.readReg r).toNat = v
  others : ∀ q, q ≠ r → t.readReg q = s.readReg q
  frame : t = { s with regs := t.regs, pc := s.pc + BitVec.ofNat 16 n }

/-- What a program can see of a state: everything an instruction can read (R26, R30, R41). -/
structure SameView (s t : State) : Prop where
  pc : s.pc = t.pc
  regs : s.regs = t.regs
  stack : s.stack = t.stack
  mem : s.mem = t.mem
  run : s.run = t.run
  cfg : s.cfg = t.cfg

end Sys2Proof.Machine
end

