-- ==== Sys2Proof/Certificates/Slice0/Obligations.lean ====
section
/-! DEFINITION. The statements for the provers, from the numbered rules of spec/. `x` and `y` name what an operand
resolves to: `resolveValue s a = some x` says that operand `a` is a literal or a register reference and `x` its
value in `s` (30_encoding.md R76). Where states are equated, the equation also says that an instruction other than IN
leaves `in_dest` and the model's `freeCount`: no rule has it write them; see assumption log 5. -/

open Sys2Proof Sys2Proof.Machine

/-! ## Encoding and decoding -/

/-- 30_encoding.md R70, R72, R75, R80: decoding the words of a well-formed instruction, whatever follows them, gives
that instruction back and leaves the rest. -/
def Obligations.DecodeEncodeRoundTrip : Prop :=
  ∀ (i : Instr) (rest : List Word), i.wellFormed = true → decode (encode i ++ rest) = .ok (i, rest)

/-- R70, R72, R75, R81: what decodes is well formed, as long as its arity says, and its words are the ones its
encoding gives: no two instructions share words. -/
def Obligations.EncodeDecodeRoundTrip : Prop :=
  ∀ (ws : List Word) (i : Instr) (rest : List Word), decode ws = .ok (i, rest) →
    i.wellFormed = true ∧ ws = encode i ++ rest ∧ (encode i).length = i.length ∧ i.length = 1 + arity i.opcode

/-- R85: some of the spec's encoding examples, word by word. -/
def Obligations.SpecExampleWordsDecode : Prop :=
  decode [0] = .ok (.halt, []) ∧
  decode [1, 32768, 72] = .ok (.set (.register 0) (.literal 72), []) ∧
  decode [9, 32768, 32769, 4] = .ok (.add (.register 0) (.register 1) (.literal 4), []) ∧
  decode [7, 32775, 32767] = .ok (.jt (.register 7) (.literal 32767), []) ∧
  decode [19, 32768] = .ok (.out (.register 0), []) ∧
  decode [21] = .ok (.noop, [])

/-- R71, R82: an opcode word is rejected exactly when it lies in 22..65535, whatever words follow; the register
references 32768..32775 are among those rejected. -/
def Obligations.IllegalOpcodesAreExactlyThoseAbove21 : Prop :=
  ∀ (w0 : Word) (ws : List Word), decode (w0 :: ws) = .error (.invalidOpcode w0) ↔ 22 ≤ w0.toNat

/-! ## The step -/

/-- 40_cycle.md R100, R108: a running block whose memory holds the words of a well-formed instruction at the pc, all
of them inside 0..32767, runs that instruction. `exec` is given the state as it is: the meanings move the pc. -/
def Obligations.StepRunsInstructionAtPc : Prop :=
  ∀ (s : State) (i : Instr), s.run = .running → i.wellFormed = true → s.pc.toNat + i.length ≤ 32768 →
    (∀ k (h : k < (encode i).length), s.mem.read (s.pc.toNat + k) = (encode i)[k]) →
    step s = exec i s

/-- R100: a move is enabled exactly when the block is RUNNING, or waits in an IN and the host offers a byte. So no
instruction is refused and none ends the model's run. -/
def Obligations.StepAnswersExactlyWhenAMoveIsEnabled : Prop :=
  ∀ s : State, s.pc.toNat ≤ 32768 → ((∃ t, step s = .next t) ↔ s.moveEnabled)

/-- 10_state.md R38: no step after HALTED or FAULTED. That `step` says so by the fault `stopped` is the model's
choice (assumption log 6). -/
def Obligations.StoppedBlockTakesNoStep : Prop :=
  ∀ s : State, s.cleanEnd ∨ s.failedEnd → step s = .fault .stopped

/-- 10_state.md R38, 60_exceptions.md R229: the first stop ends the run: nothing but the stopped state itself, with all
its registers, stack, memory and output, is reached from it. -/
def Obligations.StopsAreFinal : Prop :=
  ∀ s t : State, s.cleanEnd ∨ s.failedEnd → Reaches s t → t = s

/-- 10_state.md R34: the block waits while the host offers no byte. That `step` says so by the fault `awaitingInput`
is the model's choice (assumption log 7). -/
def Obligations.WaitingWithoutAByteMakesNoMove : Prop :=
  ∀ s : State, s.stuck → step s = .fault .awaitingInput

/-- 40_cycle.md R102: at pc 32768 nothing is fetched; a clean stop, and nothing but `run` and the record changes. -/
def Obligations.EndOfMemoryStopsCleanly : Prop :=
  ∀ s : State, s.run = .running → s.pc.toNat = 32768 →
    step s = .next { s with run := .halted, stop := { code := .endOfMemory, pc := 32768, word := 0, index := 0 } }

/-- 20_memory.md R58, 43_control.md R180: a zero word reached at the pc halts, with the record naming its address. So
does every cell past a shorter image. -/
def Obligations.ZeroWordHalts : Prop :=
  ∀ s : State, s.run = .running → s.pc.toNat ≤ 32767 → s.mem.read s.pc.toNat = 0 →
    step s = .next { s with
      pc := s.pc + 1, run := .halted, stop := { code := .halt, pc := s.pc, word := 0, index := 0 } }

/-- R103: an opcode word above 21 raises INVALID_OPCODE(ia, w0, 0), and nothing else changes. -/
def Obligations.InvalidOpcodeFaults : Prop :=
  ∀ s : State, s.run = .running → s.pc.toNat ≤ 32767 → 21 < (s.mem.read s.pc.toNat).toNat →
    step s = .next { s with
      run := .faulted,
      stop := { code := .invalidOpcode, pc := s.pc, word := s.mem.read s.pc.toNat, index := 0 } }

/-- R103: an instruction whose operand word `k` would lie at 32768 raises FETCH_OUT_OF_RANGE(ia, w0, k), whatever
the operand words inside memory are. -/
def Obligations.OperandFetchPastTheEndFaults : Prop :=
  ∀ (s : State) (kinds : List OperandKind) (k : Nat), s.run = .running →
    opcodeKinds (s.mem.read s.pc.toNat).toNat = some kinds → 1 ≤ k → k ≤ kinds.length → s.pc.toNat + k = 32768 →
    step s = .next { s with
      run := .faulted,
      stop := { code := .fetchOutOfRange, pc := s.pc, word := s.mem.read s.pc.toNat, index := BitVec.ofNat 2 k } }

/-- R104, R109 stage 4, with R82's word ranges: when all words of an instruction are in memory, the first operand
word that its position does not accept raises its fault with that word and its position, and nothing else changes. -/
def Obligations.FirstBadOperandFaults : Prop :=
  ∀ (s : State) (kinds : List OperandKind) (c : StopCode) (w : Word) (k : Nat), s.run = .running →
    opcodeKinds (s.mem.read s.pc.toNat).toNat = some kinds → s.pc.toNat + kinds.length ≤ 32767 →
    firstBadOperand 1 (kinds.zip ((List.range kinds.length).map fun j => s.mem.read (s.pc.toNat + 1 + j))) =
      some (c, w, k) →
    step s = .next { s with
      run := .faulted, stop := { code := c, pc := s.pc, word := w, index := BitVec.ofNat 2 k } }

/-- R82, R104, R109 stage 5: an instruction with legal operands stops exactly when its own cause holds, with that
cause's code at its own address: HALT always, RET and POP on an empty stack, MOD by zero, PUSH and CALL on a full one.
Otherwise the stop record stays, and `run` too, but for IN, which waits. -/
def Obligations.LegalOperandsRaiseNoOperandFault : Prop :=
  ∀ (i : Instr) (s t : State), i.legal = true → exec i s = .next t →
    (∃ c r, OwnStop s i c r ∧ t.run = r ∧ t.stop.code = c ∧ t.stop.pc = s.pc) ∨
    ((∀ c r, ¬ OwnStop s i c r) ∧ t.stop = s.stop ∧
      ((∃ o, i = .inp o) ∧ t.run = .waitInput ∨ (∀ o, i ≠ .inp o) ∧ t.run = s.run))

/-- 40_cycle.md R104: for every instruction, the first operand that its position does not accept raises its fault,
with its own word and position, and nothing else changes; also an operand the instruction would not use. -/
def Obligations.FirstFailingOperandFaults : Prop := ∀ (i : Instr) (s : State), ResolutionFaults i s

/-! ## Data movement and the stack -/

/-- 41_data_stack.md R133, SET: its words, its faults, and that it stores the value of its operand. -/
def Obligations.SetCopiesValue : Prop :=
  ∀ (s : State) (d a : Operand),
    encode (.set d a) = [1, d.word, a.word] ∧ ResolutionFaults (.set d a) s ∧
    ∀ (r : RegIdx) (x : Value), d = .register r → resolveValue s a = some x →
      ∃ t, exec (.set d a) s = .next t ∧ WritesRegister r x.toNat 3 s t

/-- R134, R130, PUSH: its words, its faults, and that it puts its operand's value on top. A stack that holds a finite
STACK_CAPACITY of entries raises STACK_OVERFLOW(ia, 2, 0). -/
def Obligations.PushPutsValueOnTop : Prop :=
  ∀ (s : State) (a : Operand),
    encode (.push a) = [2, a.word] ∧ ResolutionFaults (.push a) s ∧
    ∀ x : Value, resolveValue s a = some x →
      (s.cfg.stackCapacity = some s.stack.length → Raises (.push a) s .stackOverflow 2 0) ∧
      (s.cfg.stackCapacity ≠ some s.stack.length →
        exec (.push a) s = .next { s with stack := s.stack ++ [BitVec.ofNat 16 x.toNat], pc := s.pc + 2 })

/-- R135, R131, R25, POP: its words, its faults, and that it takes the top entry off and stores it mod 32768. An empty
stack raises STACK_UNDERFLOW(ia, 3, 0). -/
def Obligations.PopStoresTopMod32768 : Prop :=
  ∀ (s : State) (d : Operand),
    encode (.pop d) = [3, d.word] ∧ ResolutionFaults (.pop d) s ∧
    ∀ r : RegIdx, d = .register r →
      (s.stack = [] → Raises (.pop d) s .stackUnderflow 3 0) ∧
      (∀ (below : List Word) (e : Word), s.stack = below ++ [e] →
        ∃ t, exec (.pop d) s = .next t ∧
          (t.readReg r).toNat = e.toNat % 32768 ∧ (∀ q, q ≠ r → t.readReg q = s.readReg q) ∧
          t = { s with regs := t.regs, stack := below, pc := s.pc + 2 })

/-- R136: only a CALL at 32766, whose operand word is at 32767, can put the entry 32768 on the stack, and POP of that
entry stores 0. -/
def Obligations.Only32766CallPushes32768 : Prop :=
  (∀ (i : Instr) (s t : State), exec i s = .next t → t.stack = s.stack ++ [32768] →
    (∃ o, i = .call o) ∧ s.pc.toNat = 32766) ∧
  (∀ (s : State) (r : RegIdx) (below : List Word), s.stack = below ++ [32768] →
    ∃ t, exec (.pop (.register r)) s = .next t ∧ t.readReg r = 0)

/-- R137: PUSH then POP leaves the pushed value in the register and the stack as it was. -/
def Obligations.PushThenPopRestoresStack : Prop :=
  ∀ (s : State) (a : Operand) (x : Value) (r : RegIdx), resolveValue s a = some x →
    s.cfg.stackCapacity ≠ some s.stack.length →
    ∃ t u, exec (.push a) s = .next t ∧ exec (.pop (.register r)) t = .next u ∧
      u.readReg r = x ∧ u.stack = s.stack

/-! ## The ALU -/

/-- 42_alu.md R152, EQ: its words, its faults, and that it writes 1 if the values are equal, else 0. -/
def Obligations.EqWritesEquality : Prop :=
  ∀ (s : State) (d a b : Operand),
    encode (.eq d a b) = [4, d.word, a.word, b.word] ∧ ResolutionFaults (.eq d a b) s ∧
    ∀ (r : RegIdx) (x y : Value), d = .register r → resolveValue s a = some x → resolveValue s b = some y →
      ∃ t, exec (.eq d a b) s = .next t ∧ WritesRegister r (if x.toNat = y.toNat then 1 else 0) 4 s t

/-- R153, GT: its words, its faults, and that it writes 1 if the first value is greater, unsigned, else 0. -/
def Obligations.GtWritesUnsignedOrder : Prop :=
  ∀ (s : State) (d a b : Operand),
    encode (.gt d a b) = [5, d.word, a.word, b.word] ∧ ResolutionFaults (.gt d a b) s ∧
    ∀ (r : RegIdx) (x y : Value), d = .register r → resolveValue s a = some x → resolveValue s b = some y →
      ∃ t, exec (.gt d a b) s = .next t ∧ WritesRegister r (if x.toNat > y.toNat then 1 else 0) 4 s t

/-- R154, ADD: its words, its faults, and that it writes the sum mod 32768. -/
def Obligations.AddWritesSumMod32768 : Prop :=
  ∀ (s : State) (d a b : Operand),
    encode (.add d a b) = [9, d.word, a.word, b.word] ∧ ResolutionFaults (.add d a b) s ∧
    ∀ (r : RegIdx) (x y : Value), d = .register r → resolveValue s a = some x → resolveValue s b = some y →
      ∃ t, exec (.add d a b) s = .next t ∧ WritesRegister r ((x.toNat + y.toNat) % 32768) 4 s t

/-- R155, MULT: its words, its faults, and that it writes the product mod 32768. -/
def Obligations.MultWritesProductMod32768 : Prop :=
  ∀ (s : State) (d a b : Operand),
    encode (.mult d a b) = [10, d.word, a.word, b.word] ∧ ResolutionFaults (.mult d a b) s ∧
    ∀ (r : RegIdx) (x y : Value), d = .register r → resolveValue s a = some x → resolveValue s b = some y →
      ∃ t, exec (.mult d a b) s = .next t ∧ WritesRegister r ((x.toNat * y.toNat) % 32768) 4 s t

/-- R156, MOD: its words, its faults, and that it writes the remainder. A divisor of 0, literal or register, raises
DIVISION_BY_ZERO(ia, 11, 0). -/
def Obligations.ModWritesRemainder : Prop :=
  ∀ (s : State) (d a b : Operand),
    encode (.mod d a b) = [11, d.word, a.word, b.word] ∧ ResolutionFaults (.mod d a b) s ∧
    ∀ (r : RegIdx) (x y : Value), d = .register r → resolveValue s a = some x → resolveValue s b = some y →
      (y.toNat = 0 → Raises (.mod d a b) s .divisionByZero 11 0) ∧
      (y.toNat ≠ 0 → ∃ t, exec (.mod d a b) s = .next t ∧ WritesRegister r (x.toNat % y.toNat) 4 s t)

/-- R157, AND: its words, its faults, and that it writes the bitwise and. -/
def Obligations.AndWritesBitwiseAnd : Prop :=
  ∀ (s : State) (d a b : Operand),
    encode (.and d a b) = [12, d.word, a.word, b.word] ∧ ResolutionFaults (.and d a b) s ∧
    ∀ (r : RegIdx) (x y : Value), d = .register r → resolveValue s a = some x → resolveValue s b = some y →
      ∃ t, exec (.and d a b) s = .next t ∧ WritesRegister r (x.toNat &&& y.toNat) 4 s t

/-- R158, OR: its words, its faults, and that it writes the bitwise or. -/
def Obligations.OrWritesBitwiseOr : Prop :=
  ∀ (s : State) (d a b : Operand),
    encode (.or d a b) = [13, d.word, a.word, b.word] ∧ ResolutionFaults (.or d a b) s ∧
    ∀ (r : RegIdx) (x y : Value), d = .register r → resolveValue s a = some x → resolveValue s b = some y →
      ∃ t, exec (.or d a b) s = .next t ∧ WritesRegister r (x.toNat ||| y.toNat) 4 s t

/-- R159, NOT: its words, its faults, and that it writes the 15-bit complement. -/
def Obligations.NotWritesComplement : Prop :=
  ∀ (s : State) (d a : Operand),
    encode (.not d a) = [14, d.word, a.word] ∧ ResolutionFaults (.not d a) s ∧
    ∀ (r : RegIdx) (x : Value), d = .register r → resolveValue s a = some x →
      ∃ t, exec (.not d a) s = .next t ∧ WritesRegister r (32767 - x.toNat) 3 s t

/-- R160, the laws the source states: ADD and MULT give the sum and the product mod 32768, both in 0..32767, and NOT of
NOT gives the value back, for every two registers, the same one included. -/
def Obligations.SourceLawsOfTheAlu : Prop :=
  ∀ (s : State) (r q : RegIdx) (a b : Operand) (x y : Value),
    resolveValue s a = some x → resolveValue s b = some y →
    (∃ t, exec (.add (.register r) a b) s = .next t ∧ (t.readReg r).toNat = (x.toNat + y.toNat) % 32768 ∧
      (t.readReg r).toNat ≤ 32767) ∧
    (∃ t, exec (.mult (.register r) a b) s = .next t ∧ (t.readReg r).toNat = (x.toNat * y.toNat) % 32768 ∧
      (t.readReg r).toNat ≤ 32767) ∧
    ∃ t u, exec (.not (.register r) a) s = .next t ∧ exec (.not (.register q) (.register r)) t = .next u ∧
      u.readReg q = x

/-! ## Control transfer -/

/-- 43_control.md R180, HALT: its word, and that it stops cleanly; pc keeps the address after it. -/
def Obligations.HaltStopsCleanly : Prop :=
  encode .halt = [0] ∧
  ∀ s : State, exec .halt s = .next { s with
    pc := s.pc + 1, run := .halted, stop := { code := .halt, pc := s.pc, word := 0, index := 0 } }

/-- R181, R179, JMP: its words, its faults, and that it sets pc to its target. -/
def Obligations.JmpSetsPc : Prop :=
  ∀ (s : State) (t : Operand),
    encode (.jmp t) = [6, t.word] ∧ ResolutionFaults (.jmp t) s ∧
    ∀ x : Value, resolveAddress s t = some x → exec (.jmp t) s = .next { s with pc := BitVec.ofNat 16 x.toNat }

/-- R182, JT: its words, its faults, and that it jumps exactly when its value is not 0. -/
def Obligations.JtJumpsIfNonZero : Prop :=
  ∀ (s : State) (a t : Operand),
    encode (.jt a t) = [7, a.word, t.word] ∧ ResolutionFaults (.jt a t) s ∧
    ∀ v x : Value, resolveValue s a = some v → resolveAddress s t = some x →
      exec (.jt a t) s = .next { s with pc := if v.toNat ≠ 0 then BitVec.ofNat 16 x.toNat else s.pc + 3 }

/-- R183, JF: its words, its faults, and that it jumps exactly when its value is 0. That a bad target faults also
when the jump is not taken is the spec's own choice, 92_eei_decisions.md D5 (assumption log 1). -/
def Obligations.JfJumpsIfZero : Prop :=
  ∀ (s : State) (a t : Operand),
    encode (.jf a t) = [8, a.word, t.word] ∧ ResolutionFaults (.jf a t) s ∧
    ∀ v x : Value, resolveValue s a = some v → resolveAddress s t = some x →
      exec (.jf a t) s = .next { s with pc := if v.toNat = 0 then BitVec.ofNat 16 x.toNat else s.pc + 3 }

/-- R184, CALL: its words, its faults, and that it pushes the address after its operand word and jumps. A stack that
holds a finite STACK_CAPACITY of entries raises STACK_OVERFLOW(ia, 17, 0). -/
def Obligations.CallPushesReturnAddress : Prop :=
  ∀ (s : State) (t : Operand),
    encode (.call t) = [17, t.word] ∧ ResolutionFaults (.call t) s ∧
    ∀ x : Value, resolveAddress s t = some x →
      (s.cfg.stackCapacity = some s.stack.length → Raises (.call t) s .stackOverflow 17 0) ∧
      (s.cfg.stackCapacity ≠ some s.stack.length →
        exec (.call t) s = .next { s with stack := s.stack ++ [s.pc + 2], pc := BitVec.ofNat 16 x.toNat })

/-- R185, RET: its word, and that it pops the top entry into pc, unreduced, or on an empty stack stops cleanly with
pc after it. -/
def Obligations.RetPopsIntoPcOrHalts : Prop :=
  encode .ret = [18] ∧
  ∀ s : State,
    (∀ (below : List Word) (e : Word), s.stack = below ++ [e] →
      exec .ret s = .next { s with stack := below, pc := e }) ∧
    (s.stack = [] → exec .ret s = .next { s with
      pc := s.pc + 1, run := .halted, stop := { code := .retEmpty, pc := s.pc, word := 18, index := 0 } })

/-- R186, NOOP: its word, and that it advances pc by one and changes nothing else. -/
def Obligations.NoopOnlyAdvances : Prop :=
  encode .noop = [21] ∧ ∀ s : State, exec .noop s = .next { s with pc := s.pc + 1 }

/-- R187: after CALL, whenever the stack is again as the CALL left it, a RET resumes at the word after the CALL's
operand, with the stack as before the CALL. -/
def Obligations.CallThenBalancedRetResumes : Prop :=
  ∀ (s : State) (o : Operand) (x : Value), resolveAddress s o = some x →
    s.cfg.stackCapacity ≠ some s.stack.length →
    ∃ t, exec (.call o) s = .next t ∧
      ∀ u, u.stack = t.stack → ∃ v, exec .ret u = .next v ∧ v.pc = s.pc + 2 ∧ v.stack = s.stack

/-! ## Memory and I/O -/

/-- 44_memory_io.md R200, RMEM: its words, its faults, and that it stores the cell at its address mod 32768. -/
def Obligations.RmemReadsCellMod32768 : Prop :=
  ∀ (s : State) (d a : Operand),
    encode (.rmem d a) = [15, d.word, a.word] ∧ ResolutionFaults (.rmem d a) s ∧
    ∀ (r : RegIdx) (x : Value), d = .register r → resolveValue s a = some x →
      ∃ t, exec (.rmem d a) s = .next t ∧ WritesRegister r ((s.mem.read x.toNat).toNat % 32768) 3 s t

/-- R201, 20_memory.md R54, WMEM: its words, its faults, and that it sets the cell at its address to its value and
leaves every other cell, every register, the stack and the rest as they were. Memory in canonical form is the model's
form of R50's cells. -/
def Obligations.WmemWritesOneCell : Prop :=
  ∀ (s : State) (a b : Operand),
    encode (.wmem a b) = [16, a.word, b.word] ∧ ResolutionFaults (.wmem a b) s ∧
    ∀ x y : Value, s.mem.wf → resolveValue s a = some x → resolveValue s b = some y →
      ∃ t, exec (.wmem a b) s = .next t ∧ (t.mem.read x.toNat).toNat = y.toNat ∧
        (∀ c, c ≠ x.toNat → t.mem.read c = s.mem.read c) ∧ t = { s with mem := t.mem, pc := s.pc + 3 }

/-- R202, OUT: its words, its faults, and that it sends the low 8 bits of its value after all earlier output. -/
def Obligations.OutSendsLowByte : Prop :=
  ∀ (s : State) (a : Operand),
    encode (.out a) = [19, a.word] ∧ ResolutionFaults (.out a) s ∧
    ∀ x : Value, resolveValue s a = some x →
      exec (.out a) s = .next { s with output := s.output ++ [BitVec.ofNat 8 (x.toNat % 256)], pc := s.pc + 2 }

/-- R203, IN: its words, its faults and its two moves. The step latches the destination and waits, pc stays at the IN
and no byte is taken. Then the byte the host offers goes to the latched register, pc moves to `ia + 2` and the block
runs again. What `in_dest` holds after that is unspecified (R32): the statement holds for every value of it. -/
def Obligations.InWaitsThenStoresTheByte : Prop :=
  (∀ (s : State) (d : Operand),
    encode (.inp d) = [20, d.word] ∧ ResolutionFaults (.inp d) s ∧
    ∀ r : RegIdx, d = .register r → exec (.inp d) s = .next { s with inDest := r, run := .waitInput }) ∧
  ∀ (s : State) (c : Byte) (rest : List Byte), s.run = .waitInput → s.input = c :: rest →
    ∃ t, step s = .next t ∧ (t.readReg s.inDest).toNat = c.toNat ∧
      (∀ q, q ≠ s.inDest → t.readReg q = s.readReg q) ∧
      t = { s with
        regs := t.regs, pc := s.pc + 2, run := .running, input := rest,
        inDest := t.inDest, freeCount := t.freeCount }

/-- 20_memory.md R62, R60: a WMEM taken from memory by `step`, whose address is the word right after its own, stores
any `y` there. The next fetch begins with `y`; the next step runs the instruction whose opcode word `y` is, its operand
words as they stood before the WMEM, or faults where `y` is no opcode. -/
def Obligations.WmemIsSeenByTheNextFetch : Prop :=
  ∀ (s : State) (a b : Operand) (x y : Value) (after : List Word), s.mem.wf → s.run = .running →
    decode (fetch s.mem s.pc.toNat) = .ok (.wmem a b, after) →
    resolveValue s a = some x → resolveValue s b = some y → x.toNat = s.pc.toNat + 3 →
    ∃ t, step s = .next t ∧ t.pc = s.pc + 3 ∧ (fetch t.mem t.pc.toNat).head? = some (BitVec.ofNat 16 y.toNat) ∧
      (∀ i : Instr, i.wellFormed = true → i.opcode.toNat = y.toNat → x.toNat + i.length ≤ 32768 →
        (∀ k (h : k < (encode i).length), 1 ≤ k → s.mem.read (x.toNat + k) = (encode i)[k]) →
        step t = exec i t) ∧
      (21 < y.toNat → step t = .next { t with
        run := .faulted,
        stop := { code := .invalidOpcode, pc := s.pc + 3, word := BitVec.ofNat 16 y.toNat, index := 0 } })

/-- 20_memory.md R51, R64: no step makes a cell of 32768 or more; a cell that holds one held the same before. So
register references and such opcode words reach memory only through the image. -/
def Obligations.HighCellsComeOnlyFromTheImage : Prop :=
  ∀ (s t : State) (c : Nat), s.mem.wf → step s = .next t → 32768 ≤ (t.mem.read c).toNat →
    t.mem.read c = s.mem.read c

/-- 20_memory.md R55, R60: a cell reads as the last write to it, and a write leaves every other cell alone. -/
def Obligations.CellReadsAsLastWritten : Prop :=
  ∀ (m : Memory) (a c : Nat) (v : Word), m.wf → (m.write a v).read c = if c = a then v else m.read c

/-! ## Frames, for every instruction and every form, the faulting ones too -/

/-- 10_state.md R41: an instruction changes no register but the one its destination operand names. IN's register is
written by its second move. -/
def Obligations.OnlyTheDestinationRegisterChanges : Prop :=
  ∀ (i : Instr) (s t : State), exec i s = .next t →
    ∀ r, (OperandKind.dest, Operand.register r) ∉ i.operands → t.readReg r = s.readReg r

/-- R41, 20_memory.md R54: every cell reads as before, but the one WMEM's first operand gives as its address. -/
def Obligations.OnlyWmemChangesMemory : Prop :=
  ∀ (i : Instr) (s t : State), s.mem.wf → exec i s = .next t → ∀ c : Nat,
    (∀ a b x, i = .wmem a b → resolveValue s a = some x → c ≠ x.toNat) → t.mem.read c = s.mem.read c

/-- R41, 41_data_stack.md R132: only PUSH and CALL add an entry, only POP and RET take one, one entry at a time, and
every other instruction leaves the stack. -/
def Obligations.OnlyStackInstructionsTouchTheStack : Prop :=
  ∀ (i : Instr) (s t : State), exec i s = .next t → t.stack ≠ s.stack →
    ((∃ o e, (i = .push o ∨ i = .call o) ∧ t.stack = s.stack ++ [e]) ∨
     (∃ o e, (i = .pop o ∨ i = .ret) ∧ s.stack = t.stack ++ [e]))

/-- R41, 44_memory_io.md R204: a step sends at most one byte, only OUT sends one, and no byte once sent is taken back. -/
def Obligations.OutputOnlyGrowsAndOnlyByOut : Prop :=
  ∀ s t : State, step s = .next t →
    t.output = s.output ∨
      ∃ a b rest, decode (fetch s.mem s.pc.toNat) = .ok (.out a, rest) ∧ s.run = .running ∧
        t.output = s.output ++ [b]

/-- 10_state.md R37, R33, R34, R41, R6: an instruction that goes on running does not write the stop record, takes no
input, sends at most one byte, and only as an OUT, and leaves the machine's parameters; only IN waits, latching its
register, and a stop is a fault or a clean halt with its record. That an instruction other than IN leaves `in_dest`,
and all of them `freeCount`, is the model's choice (assumption log 5): R32 leaves the value outside a wait open. -/
def Obligations.RunningInstructionsLeaveControlState : Prop :=
  ∀ (i : Instr) (s t : State), exec i s = .next t →
    t.input = s.input ∧ t.cfg = s.cfg ∧ t.freeCount = s.freeCount ∧
    (t.output = s.output ∨ ∃ a b, i = .out a ∧ t.output = s.output ++ [b]) ∧
    (t.run = s.run ∧ t.stop = s.stop ∧ t.inDest = s.inDest ∨
     t.run = .waitInput ∧ t.stop = s.stop ∧ (∃ r, i = .inp (.register r) ∧ t.inDest = r) ∨
     (t.run = .halted ∨ t.run = .faulted) ∧ t.stop.code ≠ .none ∧ t.stop.pc = s.pc ∧ t.inDest = s.inDest)

/-! ## Rules about the whole machine -/

/-- 40_cycle.md R107, 60_exceptions.md R220, R224: faults are precise. A step that ends FAULTED changes `run` and the
stop record, whose stop_pc is the instruction's address, and nothing else. -/
def Obligations.FaultsLeaveNoPartialEffect : Prop :=
  ∀ s t : State, step s = .next t → t.failedEnd →
    t = { s with run := .faulted, stop := t.stop } ∧ t.stop.pc = s.pc

/-- 10_state.md R30, R32, 60_exceptions.md R235: no program can see the stop record, the output already sent, or, but
for a waiting IN, `in_dest` and the input. Take two states that agree on what a program can see, and, if they wait, on
the latched `in_dest` and the byte offered next. If one steps, so does the other, to states that agree in the same way,
also on the register an IN has then latched, and both send the same bytes. -/
def Obligations.ProgramsCannotSeeStatusOrPorts : Prop :=
  ∀ s u t : State, SameView s u →
    (s.run = .waitInput → s.inDest = u.inDest ∧ s.input.head? = u.input.head?) → step s = .next t →
    ∃ v, step u = .next v ∧ SameView t v ∧ (t.run = .waitInput → t.inDest = v.inDest) ∧
      ∃ sent, t.output = s.output ++ sent ∧ v.output = u.output ++ sent

/-- 10_state.md R23, R28, R31, R37, 20_memory.md R50, 41_data_stack.md R130, 60_exceptions.md R223 to R225: every
step, from every state that meets the invariant, keeps it: memory stays canonical, pc and stack entries stay in
0..32768, the stack stays within its capacity, and the stop record agrees with `run` row by row. -/
def Obligations.StepKeepsTheInvariant : Prop :=
  ∀ s t : State, s.Inv → step s = .next t → t.Inv

/-- 10_state.md R40, 00_scope.md R6: every start of a run meets the invariant: the state after reset with nothing
placed, reset release with any memory in canonical form, and every launch that succeeds, for every STACK_CAPACITY that
is `none` or positive. -/
def Obligations.ResetMeetsTheInvariant : Prop :=
  State.reset.Inv ∧
  (∀ (m : Memory) (s : State), m.wf → (∀ n, s.cfg.stackCapacity = some n → 0 < n) → (s.applyReset m).Inv) ∧
  (∀ (cfg : Config) (image input : List Byte) (s : State), (∀ n, cfg.stackCapacity = some n → 0 < n) →
    launch cfg image input = .ok s → s.Inv)

/-- 60_exceptions.md R221, R225, 10_state.md R31, R37: what the host reads says how the run ended. Where the invariant
holds, stop_code is 0 exactly when `run` is RUNNING (0) or WAIT_INPUT (1), 1 to 3 exactly when it is HALTED (2), and
16 to 22 exactly when it is FAULTED (3). -/
def Obligations.StatusCodesSayHowARunEnds : Prop :=
  ∀ s : State, s.Inv →
    (s.statusOutputs.stopCode.toNat = 0 ↔ s.statusOutputs.run.toNat ≤ 1) ∧
    (1 ≤ s.statusOutputs.stopCode.toNat ∧ s.statusOutputs.stopCode.toNat ≤ 3 ↔ s.statusOutputs.run.toNat = 2) ∧
    (16 ≤ s.statusOutputs.stopCode.toNat ∧ s.statusOutputs.stopCode.toNat ≤ 22 ↔ s.statusOutputs.run.toNat = 3)

/-! ## Reset and load -/

/-- 10_state.md R40, 70_reset_and_hazards.md R260: whatever the block was doing, reset release leaves pc 0, every
register 0, an empty stack, RUNNING, a zero stop record, no output, and the memory the host loaded. -/
def Obligations.ResetLeavesTheResetTable : Prop :=
  ∀ (m : Memory) (s : State),
    (s.applyReset m).pc = 0 ∧ (∀ r, (s.applyReset m).readReg r = 0) ∧ (s.applyReset m).stack = [] ∧
    (s.applyReset m).run = .running ∧ (s.applyReset m).stop = { code := .none, pc := 0, word := 0, index := 0 } ∧
    (s.applyReset m).output = [] ∧ (s.applyReset m).mem = m

/-- 70_reset_and_hazards.md R262, 20_memory.md R52: an image of at most 65536 bytes, even in number, loads: cell `k`
holds byte `2k` plus 256 times byte `2k + 1`, every cell past the image holds 0, and memory is in canonical form. -/
def Obligations.ImageLoadsLittleEndian : Prop :=
  ∀ image : List Byte, image.length % 2 = 0 → image.length ≤ 65536 →
    ∃ m, loadImage image = .ok m ∧ m.wf ∧
      (∀ k lo hi, image[2 * k]? = some lo → image[2 * k + 1]? = some hi →
        (m.read k).toNat = lo.toNat + 256 * hi.toNat) ∧
      ∀ k, image.length ≤ 2 * k → m.read k = 0

/-- 60_exceptions.md R226: an odd byte count is MALFORMED_IMAGE, more than 32768 words IMAGE_TOO_LARGE, and neither
gives a run. That an image which is both is MALFORMED_IMAGE is the model's choice (assumption log 19). -/
def Obligations.BadImagesAreNotLaunched : Prop :=
  ∀ (cfg : Config) (image input : List Byte),
    (image.length % 2 = 1 → launch cfg image input = .error .malformedImage) ∧
    (image.length % 2 = 0 → 65536 < image.length → launch cfg image input = .error .imageTooLarge)

/-- 10_state.md R36, R40, 70_reset_and_hazards.md R262: an image of at most 65536 bytes, even in number, is launched,
with its memory and the reset value of every element of R40's table that has one. The input the host will offer and the
parameters are those given (assumption log 3, 4). -/
def Obligations.GoodImagesAreLaunchedFromTheResetTable : Prop :=
  ∀ (cfg : Config) (image input : List Byte), image.length % 2 = 0 → image.length ≤ 65536 →
    ∃ m s, loadImage image = .ok m ∧ launch cfg image input = .ok s ∧
      s.mem = m ∧ s.pc = 0 ∧ (∀ r, s.readReg r = 0) ∧ s.stack = [] ∧ s.run = .running ∧
      s.stop = { code := .none, pc := 0, word := 0, index := 0 } ∧ s.output = [] ∧ s.input = input ∧ s.cfg = cfg
end

