-- ==== Sys2Proof/Laws/Encoding.lean ====
section
/-! SUPPORT. Operand words and their classes are inverse to each other (30_encoding.md R75), and what the formats
decode to. -/

namespace Sys2Proof

theorem valueWord_toNat (v : Value) : (valueWord v).toNat = v.toNat := by
  have := v.isLt
  simp [valueWord]
  omega

theorem valueWord_eq_ofNat (v : Value) : valueWord v = BitVec.ofNat 16 v.toNat := by
  apply BitVec.eq_of_toNat_eq
  have := v.isLt
  rw [valueWord_toNat, BitVec.toNat_ofNat]
  omega

theorem regWord_toNat (r : RegIdx) : (regWord r).toNat = 32768 + r.val := by
  have := r.isLt
  simp [regWord]
  omega

/-! ## The three classes of a word -/

theorem classify_low {w : Word} (h : w.toNat ≤ 32767) : classify w = .literal (w.setWidth 15) := if_pos h

theorem classify_register {w : Word} {r : RegIdx} (h : w.toNat = 32768 + r.val) : classify w = .register r := by
  have hr := r.isLt
  unfold classify
  rw [if_neg (by omega), dif_pos (by omega), Operand.register.injEq, Fin.ext_iff]
  exact Nat.sub_eq_of_eq_add (by omega)

theorem classify_high {w : Word} (h : 32776 ≤ w.toNat) : classify w = .invalid w := by
  unfold classify
  rw [if_neg (by omega), dif_neg (by omega)]

/-- The class of the word of a canonical operand is that operand. -/
theorem classify_word {o : Operand} (h : o.canonical = true) : classify o.word = o := by
  cases o with
  | literal v =>
    have hv := v.isLt
    have hw : (Operand.literal v).word.toNat = v.toNat := valueWord_toNat v
    rw [classify_low (by omega), Operand.literal.injEq]
    apply BitVec.eq_of_toNat_eq
    rw [BitVec.toNat_setWidth, hw]
    omega
  | register r => exact classify_register (regWord_toNat r)
  | invalid w => exact classify_high (of_decide_eq_true h)

/-- The word of a word's class is that word. -/
theorem word_classify (w : Word) : (classify w).word = w := by
  have hw := w.isLt
  unfold classify
  split
  · apply BitVec.eq_of_toNat_eq
    simp only [Operand.word, valueWord_toNat, BitVec.toNat_setWidth]
    omega
  · split
    · apply BitVec.eq_of_toNat_eq
      simp only [Operand.word, regWord_toNat]
      omega
    · rfl

/-- Every class of a word is canonical. -/
theorem classify_canonical (w : Word) : (classify w).canonical = true := by
  unfold classify
  split
  · rfl
  · split
    · rfl
    · simp only [Operand.canonical, decide_eq_true_eq]
      omega

/-! ## The formats -/

theorem formatOne_ok {w0 : Word} {mk : Operand → Instr} {ws rest : List Word} {i : Instr}
    (h : formatOne w0 mk ws = .ok (i, rest)) : ∃ w1, ws = w1 :: rest ∧ i = mk (classify w1) := by
  match ws, h with
  | w1 :: _, h =>
    simp only [formatOne, Except.ok.injEq, Prod.mk.injEq] at h
    exact ⟨w1, by rw [h.2], h.1.symm⟩

theorem formatTwo_ok {w0 : Word} {mk : Operand → Operand → Instr} {ws rest : List Word} {i : Instr}
    (h : formatTwo w0 mk ws = .ok (i, rest)) :
    ∃ w1 w2, ws = w1 :: w2 :: rest ∧ i = mk (classify w1) (classify w2) := by
  match ws, h with
  | w1 :: w2 :: _, h =>
    simp only [formatTwo, Except.ok.injEq, Prod.mk.injEq] at h
    exact ⟨w1, w2, by rw [h.2], h.1.symm⟩

theorem formatThree_ok {w0 : Word} {mk : Operand → Operand → Operand → Instr} {ws rest : List Word} {i : Instr}
    (h : formatThree w0 mk ws = .ok (i, rest)) :
    ∃ w1 w2 w3, ws = w1 :: w2 :: w3 :: rest ∧ i = mk (classify w1) (classify w2) (classify w3) := by
  match ws, h with
  | w1 :: w2 :: w3 :: _, h =>
    simp only [formatThree, Except.ok.injEq, Prod.mk.injEq] at h
    exact ⟨w1, w2, w3, by rw [h.2], h.1.symm⟩

end Sys2Proof
end

