-- ==== Sys2Proof/Laws/Memory.lean ====
section
/-! SUPPORT. Every memory operation keeps the canonical form, and a cell reads as it was last written (20_memory.md
R53 to R55). The obligation `CellReadsAsLastWritten` is left to the provers; the parts of it stand here. -/

namespace Sys2Proof.Machine

/-- Every address listed in `m` lies above `a`. -/
def Memory.above (a : Nat) (m : Memory) : Prop := ∀ c ∈ m, a < c.1

theorem Memory.wf_nil : Memory.wf ([] : Memory) := ⟨List.Pairwise.nil, fun _ h => absurd h List.not_mem_nil⟩

theorem Memory.wf_tail {c : Nat × Word} {m : Memory} (h : Memory.wf (c :: m)) : Memory.wf m :=
  ⟨(List.pairwise_cons.mp h.1).2, fun d hd => h.2 d (List.mem_cons_of_mem _ hd)⟩

theorem Memory.wf_head_above {c : Nat × Word} {m : Memory} (h : Memory.wf (c :: m)) : Memory.above c.1 m :=
  fun d hd => (List.pairwise_cons.mp h.1).1 d hd

/-- Put a cell in front of a memory that lies above it. -/
theorem Memory.wf_cons {a : Nat} {v : Word} {m : Memory} (ha : a < 32768) (hv : v ≠ 0) (hm : Memory.wf m)
    (hab : Memory.above a m) : Memory.wf ((a, v) :: m) := by
  refine ⟨List.pairwise_cons.mpr ⟨fun d hd => hab d hd, hm.1⟩, fun d hd => ?_⟩
  rcases List.mem_cons.mp hd with rfl | hd
  · exact ⟨ha, hv⟩
  · exact hm.2 d hd

theorem Memory.above_write {b a : Nat} {v : Word} {m : Memory} (hm : Memory.above b m) (hab : b < a) :
    Memory.above b (m.write a v) := by
  induction m with
  | nil =>
    intro c hc
    unfold Memory.write at hc
    split at hc
    · simp at hc
    · rw [List.mem_singleton] at hc; subst hc; exact hab
  | cons d rest ih =>
    have hd : b < d.1 := hm d (by simp)
    have hr : Memory.above b rest := fun c hc => hm c (List.mem_cons_of_mem _ hc)
    intro c hc
    unfold Memory.write at hc
    split at hc
    · split at hc
      · exact hm c hc
      · rcases List.mem_cons.mp hc with rfl | hc
        · exact hab
        · exact hm c hc
    · split at hc
      · split at hc
        · exact hr c hc
        · rcases List.mem_cons.mp hc with rfl | hc
          · exact hab
          · exact hr c hc
      · rcases List.mem_cons.mp hc with rfl | hc
        · exact hd
        · exact ih hr c hc

/-- A write keeps the canonical form. -/
theorem Memory.write_wf {m : Memory} (hm : m.wf) {a : Nat} (ha : a < 32768) (v : Word) : (m.write a v).wf := by
  induction m with
  | nil =>
    unfold Memory.write
    split
    · exact Memory.wf_nil
    · exact Memory.wf_cons ha (by assumption) Memory.wf_nil (by simp [Memory.above])
  | cons d rest ih =>
    have hr := Memory.wf_tail hm
    have hd := Memory.wf_head_above hm
    unfold Memory.write
    split
    · rename_i hlt
      split
      · exact hm
      · refine Memory.wf_cons ha (by assumption) hm fun c hc => ?_
        rcases List.mem_cons.mp hc with rfl | hc
        · exact hlt
        · exact Nat.lt_trans hlt (hd c hc)
    · split
      · rename_i heq
        split
        · exact hr
        · exact Memory.wf_cons ha (by assumption) hr (by rw [heq]; exact hd)
      · have hcell := hm.2 d (by simp)
        exact Memory.wf_cons hcell.1 hcell.2 (ih hr) (Memory.above_write hd (by omega))

/-- A cell below every listed address reads as 0. -/
theorem Memory.read_of_above {a : Nat} {m : Memory} (h : Memory.above a m) : m.read a = 0 := by
  induction m with
  | nil => rfl
  | cons d rest ih =>
    have hd : a < d.1 := h d (by simp)
    unfold Memory.read
    rw [if_neg (by omega)]
    exact ih fun c hc => h c (List.mem_cons_of_mem _ hc)

/-- A cell outside the address space is never listed, so it reads as 0. -/
theorem Memory.read_of_outside {a : Nat} {m : Memory} (h : m.wf) (ha : 32768 ≤ a) : m.read a = 0 := by
  induction m with
  | nil => rfl
  | cons d rest ih =>
    have hd := (h.2 d (by simp)).1
    unfold Memory.read
    rw [if_neg (by omega)]
    exact ih (Memory.wf_tail h)

/-- A written cell reads as the word written. -/
theorem Memory.read_write_same {m : Memory} (hm : m.wf) (a : Nat) (v : Word) : (m.write a v).read a = v := by
  induction m with
  | nil =>
    unfold Memory.write
    split
    · simp [Memory.read, *]
    · simp [Memory.read]
  | cons d rest ih =>
    have hd := Memory.wf_head_above hm
    unfold Memory.write
    split
    · rename_i hlt
      split
      · rename_i hv
        subst hv
        refine Memory.read_of_above fun c hc => ?_
        rcases List.mem_cons.mp hc with rfl | hc
        · exact hlt
        · exact Nat.lt_trans hlt (hd c hc)
      · simp [Memory.read]
    · split
      · rename_i heq
        split
        · rename_i hv
          subst hv
          exact Memory.read_of_above (by rw [heq]; exact hd)
        · simp [Memory.read]
      · rename_i h1 h2
        unfold Memory.read
        rw [if_neg (Ne.symm h2)]
        exact ih (Memory.wf_tail hm)

/-- A write leaves every other cell as it was, in any memory. -/
theorem Memory.read_write_other (m : Memory) {a c : Nat} (v : Word) (h : c ≠ a) : (m.write a v).read c = m.read c := by
  induction m with
  | nil =>
    unfold Memory.write
    split
    · rfl
    · simp [Memory.read, Ne.symm h]
  | cons d rest ih =>
    unfold Memory.write
    split
    · split
      · rfl
      · simp [Memory.read, Ne.symm h]
    · split
      · rename_i heq
        have hd : d.1 ≠ c := by omega
        split <;> simp [Memory.read, hd, Ne.symm h]
      · simp only [Memory.read, ih]

/-! ## Runs of words -/

theorem Memory.above_ofWords (ws : List Word) {b a : Nat} (h : b < a) : Memory.above b (Memory.ofWords a ws) := by
  induction ws generalizing a with
  | nil => simp [Memory.ofWords, Memory.above]
  | cons w ws ih =>
    unfold Memory.ofWords
    split
    · exact ih (by omega)
    · intro c hc
      rcases List.mem_cons.mp hc with rfl | hc
      · exact h
      · exact ih (a := a + 1) (by omega) c hc

/-- A loaded image is in canonical form. -/
theorem Memory.ofWords_wf (ws : List Word) {a : Nat} (h : a + ws.length ≤ 32768) : (Memory.ofWords a ws).wf := by
  induction ws generalizing a with
  | nil => exact Memory.wf_nil
  | cons w ws ih =>
    rw [List.length_cons] at h
    unfold Memory.ofWords
    split
    · exact ih (by omega)
    · exact Memory.wf_cons (by omega) (by assumption) (ih (by omega)) (Memory.above_ofWords ws (by omega))

/-- What a loaded image's cells hold: word `k` at `a + k`, and 0 past the image. -/
theorem Memory.read_ofWords (ws : List Word) (a k : Nat) : (Memory.ofWords a ws).read (a + k) = ws.getD k 0 := by
  induction ws generalizing a k with
  | nil => simp [Memory.ofWords, Memory.read]
  | cons w ws ih =>
    unfold Memory.ofWords
    cases k with
    | zero =>
      split
      · rename_i hw
        rw [Nat.add_zero, Memory.read_of_above (Memory.above_ofWords ws (by omega))]
        simp [hw]
      · simp [Memory.read]
    | succ k =>
      have e : a + (k + 1) = a + 1 + k := by omega
      split
      · rw [e, ih]; simp
      · unfold Memory.read
        rw [if_neg (by omega), e, ih]; simp

/-- Placing a run of words inside the address space keeps the canonical form. -/
theorem Memory.place_wf (ws : List Word) {m : Memory} (hm : m.wf) {a : Nat} (h : a + ws.length ≤ 32768) :
    (m.place a ws).wf := by
  induction ws generalizing m a with
  | nil => exact hm
  | cons w ws ih =>
    rw [List.length_cons] at h
    exact ih (Memory.write_wf hm (by omega) w) (by omega)

theorem Memory.read_place_below (ws : List Word) (m : Memory) {a c : Nat} (h : c < a) :
    (m.place a ws).read c = m.read c := by
  induction ws generalizing m a with
  | nil => rfl
  | cons w ws ih =>
    unfold Memory.place
    rw [ih _ (by omega), Memory.read_write_other _ _ (by omega)]

/-- A placed word is read back. -/
theorem Memory.read_place (ws : List Word) {m : Memory} (hm : m.wf) {a : Nat} (h : a + ws.length ≤ 32768) (k : Nat)
    (hk : k < ws.length) : (m.place a ws).read (a + k) = ws[k] := by
  induction ws generalizing m a k with
  | nil => simp at hk
  | cons w ws ih =>
    rw [List.length_cons] at h hk
    unfold Memory.place
    cases k with
    | zero =>
      rw [Nat.add_zero a, Memory.read_place_below _ _ (by omega), Memory.read_write_same hm]
      rfl
    | succ k =>
      have e : a + (k + 1) = a + 1 + k := by omega
      rw [e, ih (Memory.write_wf hm (by omega) w) (by omega) k (by omega)]
      rfl

/-! ## Fetch -/

theorem wordsFrom_inside (m : Memory) {a n : Nat} (h : a + n ≤ 32768) :
    wordsFrom m a n = (List.range n).map fun j => m.read (a + j) := by
  induction n generalizing a with
  | zero => rfl
  | succ n ih =>
    unfold wordsFrom
    rw [if_pos (by omega), ih (by omega), List.range_succ_eq_map, List.map_cons, List.map_map]
    refine congrArg₂ _ rfl (List.map_congr_left fun j _ => ?_)
    simp only [Function.comp_apply]
    congr 1
    omega

theorem wordsFrom_outside (m : Memory) {a : Nat} (n : Nat) (h : 32768 ≤ a) : wordsFrom m a n = [] := by
  cases n with
  | zero => rfl
  | succ n => unfold wordsFrom; rw [if_neg (by omega)]

/-- A fetch inside the address space begins with the opcode word (40_cycle.md R101). -/
theorem fetch_cons (m : Memory) {ia : Nat} (h : ia < 32768) :
    fetch m ia = m.read ia :: wordsFrom m (ia + 1) (arity (m.read ia)) := by
  unfold fetch
  rw [Nat.add_comm 1, wordsFrom, if_pos h]

theorem fetch_outside (m : Memory) {ia : Nat} (h : 32768 ≤ ia) : fetch m ia = [] := wordsFrom_outside m _ h

/-- Every image word comes from two bytes, low byte first (20_memory.md R52). -/
theorem imageWords_cases (image : List Byte) :
    (image.length % 2 = 1 ∧ imageWords image = none) ∨
      ∃ ws, imageWords image = some ws ∧ image.length = 2 * ws.length ∧
        ∀ k lo hi, image[2 * k]? = some lo → image[2 * k + 1]? = some hi →
          (ws.getD k 0).toNat = lo.toNat + 256 * hi.toNat := by
  match image with
  | [] => exact .inr ⟨[], rfl, rfl, by simp⟩
  | [b] => exact .inl ⟨rfl, rfl⟩
  | b0 :: b1 :: rest =>
    rcases imageWords_cases rest with ⟨hl, hn⟩ | ⟨ws, hs, hl, hw⟩
    · exact .inl ⟨by simp only [List.length_cons]; omega, by simp [imageWords, hn]⟩
    · refine .inr ⟨_, by rw [imageWords, hs]; rfl, by simp only [List.length_cons]; omega, ?_⟩
      intro k lo hi h0 h1
      cases k with
      | zero =>
        simp only [Nat.mul_zero, Nat.zero_add, List.getElem?_cons_zero, List.getElem?_cons_succ,
          Option.some.injEq] at h0 h1
        subst h0; subst h1
        have h2 := b0.isLt
        have h3 := b1.isLt
        simp only [List.getD_cons_zero, BitVec.toNat_ofNat]
        omega
      | succ k =>
        have e0 : 2 * (k + 1) = 2 * k + 1 + 1 := by omega
        rw [e0, List.getElem?_cons_succ, List.getElem?_cons_succ] at h0
        rw [e0, List.getElem?_cons_succ, List.getElem?_cons_succ] at h1
        rw [List.getD_cons_succ]
        exact hw k lo hi h0 h1

end Sys2Proof.Machine
end

