-- ==== Sys2Proof/Laws/Decode.lean ====
section
/-! SUPPORT. What decoding does, said once by the table of operand kinds (30_encoding.md R73, R81): an opcode word and
the words after it decode to an error or to the instruction with those operands. -/

namespace Sys2Proof

/-- The table of operand kinds is total below 22 and empty from there on (R80, R82). -/
theorem opcodeKinds_eq_none_iff (n : Nat) : opcodeKinds n = none ↔ 22 ≤ n := by
  constructor
  · intro h
    by_contra hn
    have : n < 22 := by omega
    interval_cases n <;> simp [opcodeKinds] at h
  · intro h
    unfold opcodeKinds
    split <;> first | rfl | omega

/-- Decoding rejects an opcode word that is no opcode. -/
theorem decode_invalid {w0 : Word} (h : opcodeKinds w0.toNat = none) (ws : List Word) :
    22 ≤ w0.toNat ∧ decode (w0 :: ws) = .error (.invalidOpcode w0) := by
  have hn := (opcodeKinds_eq_none_iff _).mp h
  refine ⟨hn, ?_⟩
  unfold decode
  dsimp only
  split <;> first | rfl | omega

theorem formatOne_spec (w0 : Word) (mk : Operand → Instr) (ws : List Word) :
    (ws.length < 1 → formatOne w0 mk ws = .error (.missingOperand w0 (ws.length + 1))) ∧
      (1 ≤ ws.length → ∃ w1, formatOne w0 mk ws = .ok (mk (classify w1), ws.drop 1) ∧ ws.take 1 = [w1]) := by
  match ws with
  | [] => simp [formatOne]
  | w1 :: rest => simp [formatOne]

theorem formatTwo_spec (w0 : Word) (mk : Operand → Operand → Instr) (ws : List Word) :
    (ws.length < 2 → formatTwo w0 mk ws = .error (.missingOperand w0 (ws.length + 1))) ∧
      (2 ≤ ws.length → ∃ w1 w2, formatTwo w0 mk ws = .ok (mk (classify w1) (classify w2), ws.drop 2) ∧
        ws.take 2 = [w1, w2]) := by
  match ws with
  | [] => simp [formatTwo]
  | [w1] => simp [formatTwo]
  | w1 :: w2 :: rest => simp [formatTwo]

theorem formatThree_spec (w0 : Word) (mk : Operand → Operand → Operand → Instr) (ws : List Word) :
    (ws.length < 3 → formatThree w0 mk ws = .error (.missingOperand w0 (ws.length + 1))) ∧
      (3 ≤ ws.length → ∃ w1 w2 w3,
        formatThree w0 mk ws = .ok (mk (classify w1) (classify w2) (classify w3), ws.drop 3) ∧
        ws.take 3 = [w1, w2, w3]) := by
  match ws with
  | [] => simp [formatThree]
  | [w1] => simp [formatThree]
  | [w1, w2] => simp [formatThree]
  | w1 :: w2 :: w3 :: rest => simp [formatThree]

theorem zip_take {α β : Type} (ks : List α) (ws : List β) : ks.zip (ws.take ks.length) = ks.zip ws := by
  induction ks generalizing ws with
  | nil => simp
  | cons k ks ih => cases ws <;> simp [ih]

/-- What decoding does when the opcode word has operand kinds `ks`. -/
structure DecodesBy (w0 : Word) (ks : List OperandKind) (ws : List Word) : Prop where
  opcode : w0.toNat < 22
  arity : ks.length ≤ 3
  short : ws.length < ks.length → decode (w0 :: ws) = .error (.missingOperand w0 (ws.length + 1))
  long : ks.length ≤ ws.length → ∃ i, decode (w0 :: ws) = .ok (i, ws.drop ks.length) ∧ i.opcode = w0 ∧
    i.operands = ks.zip (ws.map classify)

theorem decodesBy_none {w0 : Word} {ws : List Word} {i : Instr} (hd : decode (w0 :: ws) = .ok (i, ws))
    (ho : i.opcode.toNat = w0.toNat) (hlt : w0.toNat < 22) (hi : i.operands = []) : DecodesBy w0 [] ws :=
  ⟨hlt, by simp, by simp, fun _ => ⟨i, by simpa using hd, BitVec.eq_of_toNat_eq ho, by simp [hi]⟩⟩

theorem decodesBy_one {w0 : Word} {ws : List Word} {k : OperandKind} {mk : Operand → Instr}
    (hd : decode (w0 :: ws) = formatOne w0 mk ws) (ho : ∀ a, (mk a).opcode.toNat = w0.toNat) (hlt : w0.toNat < 22)
    (hi : ∀ a, (mk a).operands = [(k, a)]) : DecodesBy w0 [k] ws where
  opcode := hlt
  arity := by simp
  short h := by rw [hd]; exact (formatOne_spec w0 mk ws).1 h
  long h := by
    obtain ⟨w1, hf, ht⟩ := (formatOne_spec w0 mk ws).2 h
    refine ⟨_, by rw [hd]; exact hf, BitVec.eq_of_toNat_eq (ho _), ?_⟩
    have hz := zip_take [k] (ws.map classify)
    rw [hi, ← hz, ← List.map_take]
    simp only [List.length_cons, List.length_nil, Nat.zero_add, ht]
    rfl

theorem decodesBy_two {w0 : Word} {ws : List Word} {k l : OperandKind} {mk : Operand → Operand → Instr}
    (hd : decode (w0 :: ws) = formatTwo w0 mk ws) (ho : ∀ a b, (mk a b).opcode.toNat = w0.toNat)
    (hlt : w0.toNat < 22) (hi : ∀ a b, (mk a b).operands = [(k, a), (l, b)]) : DecodesBy w0 [k, l] ws where
  opcode := hlt
  arity := by simp
  short h := by rw [hd]; exact (formatTwo_spec w0 mk ws).1 h
  long h := by
    obtain ⟨w1, w2, hf, ht⟩ := (formatTwo_spec w0 mk ws).2 h
    refine ⟨_, by rw [hd]; exact hf, BitVec.eq_of_toNat_eq (ho _ _), ?_⟩
    have hz := zip_take [k, l] (ws.map classify)
    rw [hi, ← hz, ← List.map_take]
    simp only [List.length_cons, List.length_nil, Nat.zero_add, Nat.reduceAdd, ht]
    rfl

theorem decodesBy_three {w0 : Word} {ws : List Word} {k l m : OperandKind}
    {mk : Operand → Operand → Operand → Instr} (hd : decode (w0 :: ws) = formatThree w0 mk ws)
    (ho : ∀ a b c, (mk a b c).opcode.toNat = w0.toNat) (hlt : w0.toNat < 22)
    (hi : ∀ a b c, (mk a b c).operands = [(k, a), (l, b), (m, c)]) : DecodesBy w0 [k, l, m] ws where
  opcode := hlt
  arity := by simp
  short h := by rw [hd]; exact (formatThree_spec w0 mk ws).1 h
  long h := by
    obtain ⟨w1, w2, w3, hf, ht⟩ := (formatThree_spec w0 mk ws).2 h
    refine ⟨_, by rw [hd]; exact hf, BitVec.eq_of_toNat_eq (ho _ _ _), ?_⟩
    have hz := zip_take [k, l, m] (ws.map classify)
    rw [hi, ← hz, ← List.map_take]
    simp only [List.length_cons, List.length_nil, Nat.zero_add, Nat.reduceAdd, ht]
    rfl

/-- Decoding follows the table of operand kinds. -/
theorem decode_valid {w0 : Word} {ks : List OperandKind} (h : opcodeKinds w0.toNat = some ks) (ws : List Word) :
    DecodesBy w0 ks ws := by
  have hlt : w0.toNat < 22 := by
    by_contra hn
    rw [(opcodeKinds_eq_none_iff _).mpr (by omega)] at h
    cases h
  obtain ⟨n, hn⟩ : ∃ n, w0.toNat = n := ⟨_, rfl⟩
  rw [hn] at h hlt
  interval_cases n
  all_goals
    rw [opcodeKinds, Option.some.injEq] at h
    subst h
    have hd : decode (w0 :: ws) = decode (w0 :: ws) := rfl
    conv at hd => rhs; simp only [decode, hn]
    first
    | exact decodesBy_none hd (by rw [hn]; rfl) (by omega) rfl
    | exact decodesBy_one hd (fun _ => by rw [hn]; rfl) (by omega) fun _ => rfl
    | exact decodesBy_two hd (fun _ _ => by rw [hn]; rfl) (by omega) fun _ _ => rfl
    | exact decodesBy_three hd (fun _ _ _ => by rw [hn]; rfl) (by omega) fun _ _ _ => rfl

/-- The table gives every instruction's opcode word the kinds of its operands (R73). -/
theorem opcodeKinds_opcode (i : Instr) : opcodeKinds i.opcode.toNat = some (i.operands.map Prod.fst) := by
  cases i <;> rfl

namespace Machine

/-- What the words fetched at an address of the space decode to (40_cycle.md R103): an invalid opcode, a missing
operand word at 32768, or an instruction whose words all lie in memory. -/
theorem decode_fetch_cases (m : Memory) {ia : Nat} (hia : ia < 32768) :
    (22 ≤ (m.read ia).toNat ∧ decode (fetch m ia) = .error (.invalidOpcode (m.read ia))) ∨
    (∃ ks k, opcodeKinds (m.read ia).toNat = some ks ∧ 1 ≤ k ∧ k ≤ ks.length ∧ ia + k = 32768 ∧
      decode (fetch m ia) = .error (.missingOperand (m.read ia) k)) ∨
    (∃ ks i, opcodeKinds (m.read ia).toNat = some ks ∧ ia + ks.length ≤ 32767 ∧
      decode (fetch m ia) = .ok (i, []) ∧ i.opcode = m.read ia ∧
      i.operands = ks.zip (((List.range ks.length).map fun j => m.read (ia + 1 + j)).map classify)) := by
  rw [fetch_cons m hia]
  cases hk : opcodeKinds (m.read ia).toNat with
  | none => exact .inl (decode_invalid hk _)
  | some ks =>
    have ha : arity (m.read ia) = ks.length := by simp [arity, hk]
    rw [ha]
    by_cases hin : ia + ks.length ≤ 32767
    · have hw := wordsFrom_inside m (a := ia + 1) (n := ks.length) (by omega)
      obtain ⟨i, hd, ho, hi⟩ := (decode_valid hk (wordsFrom m (ia + 1) ks.length)).long (by simp [hw])
      rw [hw] at hd hi
      exact .inr (.inr ⟨ks, i, rfl, hin, by rw [hw, hd]; simp, ho, hi⟩)
    · have hl : (wordsFrom m (ia + 1) ks.length).length = 32767 - ia := by
        have hsplit : ∀ n a, a ≤ 32768 → 32768 ≤ a + n → (wordsFrom m a n).length = 32768 - a := by
          intro n
          induction n with
          | zero => intro a h1 h2; simp [wordsFrom]; omega
          | succ n ih =>
            intro a h1 h2
            unfold wordsFrom
            split
            · rw [List.length_cons, ih (a + 1) (by omega) (by omega)]; omega
            · simp; omega
        rw [hsplit _ _ (by omega) (by omega)]
        omega
      have hd := (decode_valid hk (wordsFrom m (ia + 1) ks.length)).short (by omega)
      rw [hl] at hd
      exact .inr (.inl ⟨ks, 32768 - ia, rfl, by omega, by omega, by omega, by rw [hd]; congr 2; omega⟩)

end Machine

end Sys2Proof
end

