-- ==== Sys2Proof/Laws/State.lean ====
section
/-! SUPPORT. One lemma per field per update of State, true by unfolding, and the laws of the register file (10_state.md
R25, R26). -/

namespace Sys2Proof.Machine

/-! ## Fields after updates -/

@[simp] theorem State.writeReg_pc (r : RegIdx) (v : Nat) (s : State) : (s.writeReg r v).pc = s.pc := rfl
@[simp] theorem State.writeReg_regs (r : RegIdx) (v : Nat) (s : State) : (s.writeReg r v).regs = s.regs.set r.val (BitVec.ofNat 15 v) := rfl
@[simp] theorem State.writeReg_stack (r : RegIdx) (v : Nat) (s : State) : (s.writeReg r v).stack = s.stack := rfl
@[simp] theorem State.writeReg_run (r : RegIdx) (v : Nat) (s : State) : (s.writeReg r v).run = s.run := rfl
@[simp] theorem State.writeReg_stop (r : RegIdx) (v : Nat) (s : State) : (s.writeReg r v).stop = s.stop := rfl
@[simp] theorem State.writeReg_inDest (r : RegIdx) (v : Nat) (s : State) : (s.writeReg r v).inDest = s.inDest := rfl
@[simp] theorem State.writeReg_mem (r : RegIdx) (v : Nat) (s : State) : (s.writeReg r v).mem = s.mem := rfl
@[simp] theorem State.writeReg_input (r : RegIdx) (v : Nat) (s : State) : (s.writeReg r v).input = s.input := rfl
@[simp] theorem State.writeReg_output (r : RegIdx) (v : Nat) (s : State) : (s.writeReg r v).output = s.output := rfl
@[simp] theorem State.writeReg_cfg (r : RegIdx) (v : Nat) (s : State) : (s.writeReg r v).cfg = s.cfg := rfl
@[simp] theorem State.writeReg_freeCount (r : RegIdx) (v : Nat) (s : State) : (s.writeReg r v).freeCount = s.freeCount := rfl

@[simp] theorem State.setPc_pc (w : Word) (s : State) : (s.setPc w).pc = w := rfl
@[simp] theorem State.setPc_regs (w : Word) (s : State) : (s.setPc w).regs = s.regs := rfl
@[simp] theorem State.setPc_stack (w : Word) (s : State) : (s.setPc w).stack = s.stack := rfl
@[simp] theorem State.setPc_run (w : Word) (s : State) : (s.setPc w).run = s.run := rfl
@[simp] theorem State.setPc_stop (w : Word) (s : State) : (s.setPc w).stop = s.stop := rfl
@[simp] theorem State.setPc_inDest (w : Word) (s : State) : (s.setPc w).inDest = s.inDest := rfl
@[simp] theorem State.setPc_mem (w : Word) (s : State) : (s.setPc w).mem = s.mem := rfl
@[simp] theorem State.setPc_input (w : Word) (s : State) : (s.setPc w).input = s.input := rfl
@[simp] theorem State.setPc_output (w : Word) (s : State) : (s.setPc w).output = s.output := rfl
@[simp] theorem State.setPc_cfg (w : Word) (s : State) : (s.setPc w).cfg = s.cfg := rfl
@[simp] theorem State.setPc_freeCount (w : Word) (s : State) : (s.setPc w).freeCount = s.freeCount := rfl

@[simp] theorem State.advance_pc (n : Nat) (s : State) : (s.advance n).pc = s.pc + BitVec.ofNat 16 n := rfl
@[simp] theorem State.advance_regs (n : Nat) (s : State) : (s.advance n).regs = s.regs := rfl
@[simp] theorem State.advance_stack (n : Nat) (s : State) : (s.advance n).stack = s.stack := rfl
@[simp] theorem State.advance_run (n : Nat) (s : State) : (s.advance n).run = s.run := rfl
@[simp] theorem State.advance_stop (n : Nat) (s : State) : (s.advance n).stop = s.stop := rfl
@[simp] theorem State.advance_inDest (n : Nat) (s : State) : (s.advance n).inDest = s.inDest := rfl
@[simp] theorem State.advance_mem (n : Nat) (s : State) : (s.advance n).mem = s.mem := rfl
@[simp] theorem State.advance_input (n : Nat) (s : State) : (s.advance n).input = s.input := rfl
@[simp] theorem State.advance_output (n : Nat) (s : State) : (s.advance n).output = s.output := rfl
@[simp] theorem State.advance_cfg (n : Nat) (s : State) : (s.advance n).cfg = s.cfg := rfl
@[simp] theorem State.advance_freeCount (n : Nat) (s : State) : (s.advance n).freeCount = s.freeCount := rfl

@[simp] theorem State.pushEntry_pc (v : Word) (s : State) : (s.pushEntry v).pc = s.pc := rfl
@[simp] theorem State.pushEntry_regs (v : Word) (s : State) : (s.pushEntry v).regs = s.regs := rfl
@[simp] theorem State.pushEntry_stack (v : Word) (s : State) : (s.pushEntry v).stack = s.stack ++ [v] := rfl
@[simp] theorem State.pushEntry_run (v : Word) (s : State) : (s.pushEntry v).run = s.run := rfl
@[simp] theorem State.pushEntry_stop (v : Word) (s : State) : (s.pushEntry v).stop = s.stop := rfl
@[simp] theorem State.pushEntry_inDest (v : Word) (s : State) : (s.pushEntry v).inDest = s.inDest := rfl
@[simp] theorem State.pushEntry_mem (v : Word) (s : State) : (s.pushEntry v).mem = s.mem := rfl
@[simp] theorem State.pushEntry_input (v : Word) (s : State) : (s.pushEntry v).input = s.input := rfl
@[simp] theorem State.pushEntry_output (v : Word) (s : State) : (s.pushEntry v).output = s.output := rfl
@[simp] theorem State.pushEntry_cfg (v : Word) (s : State) : (s.pushEntry v).cfg = s.cfg := rfl
@[simp] theorem State.pushEntry_freeCount (v : Word) (s : State) : (s.pushEntry v).freeCount = s.freeCount := rfl

@[simp] theorem State.dropTop_pc (s : State) : (s.dropTop).pc = s.pc := rfl
@[simp] theorem State.dropTop_regs (s : State) : (s.dropTop).regs = s.regs := rfl
@[simp] theorem State.dropTop_stack (s : State) : (s.dropTop).stack = s.stack.dropLast := rfl
@[simp] theorem State.dropTop_run (s : State) : (s.dropTop).run = s.run := rfl
@[simp] theorem State.dropTop_stop (s : State) : (s.dropTop).stop = s.stop := rfl
@[simp] theorem State.dropTop_inDest (s : State) : (s.dropTop).inDest = s.inDest := rfl
@[simp] theorem State.dropTop_mem (s : State) : (s.dropTop).mem = s.mem := rfl
@[simp] theorem State.dropTop_input (s : State) : (s.dropTop).input = s.input := rfl
@[simp] theorem State.dropTop_output (s : State) : (s.dropTop).output = s.output := rfl
@[simp] theorem State.dropTop_cfg (s : State) : (s.dropTop).cfg = s.cfg := rfl
@[simp] theorem State.dropTop_freeCount (s : State) : (s.dropTop).freeCount = s.freeCount := rfl

@[simp] theorem State.memWrite_pc (a v : Value) (s : State) : (s.memWrite a v).pc = s.pc := rfl
@[simp] theorem State.memWrite_regs (a v : Value) (s : State) : (s.memWrite a v).regs = s.regs := rfl
@[simp] theorem State.memWrite_stack (a v : Value) (s : State) : (s.memWrite a v).stack = s.stack := rfl
@[simp] theorem State.memWrite_run (a v : Value) (s : State) : (s.memWrite a v).run = s.run := rfl
@[simp] theorem State.memWrite_stop (a v : Value) (s : State) : (s.memWrite a v).stop = s.stop := rfl
@[simp] theorem State.memWrite_inDest (a v : Value) (s : State) : (s.memWrite a v).inDest = s.inDest := rfl
@[simp] theorem State.memWrite_mem (a v : Value) (s : State) : (s.memWrite a v).mem = s.mem.write a.toNat (valueWord v) := rfl
@[simp] theorem State.memWrite_input (a v : Value) (s : State) : (s.memWrite a v).input = s.input := rfl
@[simp] theorem State.memWrite_output (a v : Value) (s : State) : (s.memWrite a v).output = s.output := rfl
@[simp] theorem State.memWrite_cfg (a v : Value) (s : State) : (s.memWrite a v).cfg = s.cfg := rfl
@[simp] theorem State.memWrite_freeCount (a v : Value) (s : State) : (s.memWrite a v).freeCount = s.freeCount := rfl

@[simp] theorem State.sendByte_pc (b : Byte) (s : State) : (s.sendByte b).pc = s.pc := rfl
@[simp] theorem State.sendByte_regs (b : Byte) (s : State) : (s.sendByte b).regs = s.regs := rfl
@[simp] theorem State.sendByte_stack (b : Byte) (s : State) : (s.sendByte b).stack = s.stack := rfl
@[simp] theorem State.sendByte_run (b : Byte) (s : State) : (s.sendByte b).run = s.run := rfl
@[simp] theorem State.sendByte_stop (b : Byte) (s : State) : (s.sendByte b).stop = s.stop := rfl
@[simp] theorem State.sendByte_inDest (b : Byte) (s : State) : (s.sendByte b).inDest = s.inDest := rfl
@[simp] theorem State.sendByte_mem (b : Byte) (s : State) : (s.sendByte b).mem = s.mem := rfl
@[simp] theorem State.sendByte_input (b : Byte) (s : State) : (s.sendByte b).input = s.input := rfl
@[simp] theorem State.sendByte_output (b : Byte) (s : State) : (s.sendByte b).output = s.output ++ [b] := rfl
@[simp] theorem State.sendByte_cfg (b : Byte) (s : State) : (s.sendByte b).cfg = s.cfg := rfl
@[simp] theorem State.sendByte_freeCount (b : Byte) (s : State) : (s.sendByte b).freeCount = s.freeCount := rfl

@[simp] theorem State.raised_pc (c : StopCode) (w : Word) (k : Nat) (s : State) : (s.raised c w k).pc = s.pc := rfl
@[simp] theorem State.raised_regs (c : StopCode) (w : Word) (k : Nat) (s : State) : (s.raised c w k).regs = s.regs := rfl
@[simp] theorem State.raised_stack (c : StopCode) (w : Word) (k : Nat) (s : State) : (s.raised c w k).stack = s.stack := rfl
@[simp] theorem State.raised_run (c : StopCode) (w : Word) (k : Nat) (s : State) : (s.raised c w k).run = .faulted := rfl
@[simp] theorem State.raised_stop (c : StopCode) (w : Word) (k : Nat) (s : State) : (s.raised c w k).stop = { code := c, pc := s.pc, word := w, index := BitVec.ofNat 2 k } := rfl
@[simp] theorem State.raised_inDest (c : StopCode) (w : Word) (k : Nat) (s : State) : (s.raised c w k).inDest = s.inDest := rfl
@[simp] theorem State.raised_mem (c : StopCode) (w : Word) (k : Nat) (s : State) : (s.raised c w k).mem = s.mem := rfl
@[simp] theorem State.raised_input (c : StopCode) (w : Word) (k : Nat) (s : State) : (s.raised c w k).input = s.input := rfl
@[simp] theorem State.raised_output (c : StopCode) (w : Word) (k : Nat) (s : State) : (s.raised c w k).output = s.output := rfl
@[simp] theorem State.raised_cfg (c : StopCode) (w : Word) (k : Nat) (s : State) : (s.raised c w k).cfg = s.cfg := rfl
@[simp] theorem State.raised_freeCount (c : StopCode) (w : Word) (k : Nat) (s : State) : (s.raised c w k).freeCount = s.freeCount := rfl

@[simp] theorem State.stopped_pc (c : StopCode) (w p : Word) (s : State) : (s.stopped c w p).pc = p := rfl
@[simp] theorem State.stopped_regs (c : StopCode) (w p : Word) (s : State) : (s.stopped c w p).regs = s.regs := rfl
@[simp] theorem State.stopped_stack (c : StopCode) (w p : Word) (s : State) : (s.stopped c w p).stack = s.stack := rfl
@[simp] theorem State.stopped_run (c : StopCode) (w p : Word) (s : State) : (s.stopped c w p).run = .halted := rfl
@[simp] theorem State.stopped_stop (c : StopCode) (w p : Word) (s : State) : (s.stopped c w p).stop = { code := c, pc := s.pc, word := w, index := 0 } := rfl
@[simp] theorem State.stopped_inDest (c : StopCode) (w p : Word) (s : State) : (s.stopped c w p).inDest = s.inDest := rfl
@[simp] theorem State.stopped_mem (c : StopCode) (w p : Word) (s : State) : (s.stopped c w p).mem = s.mem := rfl
@[simp] theorem State.stopped_input (c : StopCode) (w p : Word) (s : State) : (s.stopped c w p).input = s.input := rfl
@[simp] theorem State.stopped_output (c : StopCode) (w p : Word) (s : State) : (s.stopped c w p).output = s.output := rfl
@[simp] theorem State.stopped_cfg (c : StopCode) (w p : Word) (s : State) : (s.stopped c w p).cfg = s.cfg := rfl
@[simp] theorem State.stopped_freeCount (c : StopCode) (w p : Word) (s : State) : (s.stopped c w p).freeCount = s.freeCount := rfl

@[simp] theorem State.startIn_pc (d : RegIdx) (s : State) : (s.startIn d).pc = s.pc := rfl
@[simp] theorem State.startIn_regs (d : RegIdx) (s : State) : (s.startIn d).regs = s.regs := rfl
@[simp] theorem State.startIn_stack (d : RegIdx) (s : State) : (s.startIn d).stack = s.stack := rfl
@[simp] theorem State.startIn_run (d : RegIdx) (s : State) : (s.startIn d).run = .waitInput := rfl
@[simp] theorem State.startIn_stop (d : RegIdx) (s : State) : (s.startIn d).stop = s.stop := rfl
@[simp] theorem State.startIn_inDest (d : RegIdx) (s : State) : (s.startIn d).inDest = d := rfl
@[simp] theorem State.startIn_mem (d : RegIdx) (s : State) : (s.startIn d).mem = s.mem := rfl
@[simp] theorem State.startIn_input (d : RegIdx) (s : State) : (s.startIn d).input = s.input := rfl
@[simp] theorem State.startIn_output (d : RegIdx) (s : State) : (s.startIn d).output = s.output := rfl
@[simp] theorem State.startIn_cfg (d : RegIdx) (s : State) : (s.startIn d).cfg = s.cfg := rfl
@[simp] theorem State.startIn_freeCount (d : RegIdx) (s : State) : (s.startIn d).freeCount = s.freeCount := rfl

@[simp] theorem State.finishIn_pc (c : Byte) (rest : List Byte) (s : State) : (s.finishIn c rest).pc = s.pc + 2 := rfl
@[simp] theorem State.finishIn_regs (c : Byte) (rest : List Byte) (s : State) : (s.finishIn c rest).regs = s.regs.set s.inDest.val (BitVec.ofNat 15 c.toNat) := rfl
@[simp] theorem State.finishIn_stack (c : Byte) (rest : List Byte) (s : State) : (s.finishIn c rest).stack = s.stack := rfl
@[simp] theorem State.finishIn_run (c : Byte) (rest : List Byte) (s : State) : (s.finishIn c rest).run = .running := rfl
@[simp] theorem State.finishIn_stop (c : Byte) (rest : List Byte) (s : State) : (s.finishIn c rest).stop = s.stop := rfl
@[simp] theorem State.finishIn_inDest (c : Byte) (rest : List Byte) (s : State) : (s.finishIn c rest).inDest = Config.freeInDest s.freeCount := rfl
@[simp] theorem State.finishIn_mem (c : Byte) (rest : List Byte) (s : State) : (s.finishIn c rest).mem = s.mem := rfl
@[simp] theorem State.finishIn_input (c : Byte) (rest : List Byte) (s : State) : (s.finishIn c rest).input = rest := rfl
@[simp] theorem State.finishIn_output (c : Byte) (rest : List Byte) (s : State) : (s.finishIn c rest).output = s.output := rfl
@[simp] theorem State.finishIn_cfg (c : Byte) (rest : List Byte) (s : State) : (s.finishIn c rest).cfg = s.cfg := rfl
@[simp] theorem State.finishIn_freeCount (c : Byte) (rest : List Byte) (s : State) : (s.finishIn c rest).freeCount = s.freeCount + 1 := rfl

/-! ## Registers -/

/-- A write is read back mod 32768 (R25). -/
theorem State.readReg_writeReg_same (r : RegIdx) (v : Nat) (s : State) :
    (s.writeReg r v).readReg r = BitVec.ofNat 15 v := by
  simp [State.readReg]

/-- A write to one register leaves the others. -/
theorem State.readReg_writeReg_other {r q : RegIdx} (v : Nat) (s : State) (h : q ≠ r) :
    (s.writeReg r v).readReg q = s.readReg q := by
  have : r.val ≠ q.val := fun e => h (Fin.ext e.symm)
  simp [State.readReg, this]

@[simp] theorem State.readReg_setPc (w : Word) (s : State) (r : RegIdx) : (s.setPc w).readReg r = s.readReg r := rfl
@[simp] theorem State.readReg_advance (n : Nat) (s : State) (r : RegIdx) : (s.advance n).readReg r = s.readReg r := rfl
@[simp] theorem State.readReg_pushEntry (v : Word) (s : State) (r : RegIdx) : (s.pushEntry v).readReg r = s.readReg r := rfl
@[simp] theorem State.readReg_dropTop (s : State) (r : RegIdx) : (s.dropTop).readReg r = s.readReg r := rfl
@[simp] theorem State.readReg_memWrite (a v : Value) (s : State) (r : RegIdx) : (s.memWrite a v).readReg r = s.readReg r := rfl
@[simp] theorem State.readReg_sendByte (b : Byte) (s : State) (r : RegIdx) : (s.sendByte b).readReg r = s.readReg r := rfl
@[simp] theorem State.readReg_raised (c : StopCode) (w : Word) (k : Nat) (s : State) (r : RegIdx) : (s.raised c w k).readReg r = s.readReg r := rfl
@[simp] theorem State.readReg_stopped (c : StopCode) (w p : Word) (s : State) (r : RegIdx) : (s.stopped c w p).readReg r = s.readReg r := rfl
@[simp] theorem State.readReg_startIn (d : RegIdx) (s : State) (r : RegIdx) : (s.startIn d).readReg r = s.readReg r := rfl

/-- A register's content depends on the register file alone. -/
theorem State.readReg_congr {s t : State} (h : t.regs = s.regs) (r : RegIdx) : t.readReg r = s.readReg r := by
  simp [State.readReg, h]

/-! ## The stack -/

/-- `Pop()` takes the last entry (41_data_stack.md R131). -/
theorem State.popEntry_of_top {s : State} {below : List Word} {e : Word} (h : s.stack = below ++ [e]) :
    s.popEntry = some (e, { s with stack := below }) := by
  simp [State.popEntry, State.dropTop, h]

/-- `Pop()` on an empty stack (R131). -/
theorem State.popEntry_of_empty {s : State} (h : s.stack = []) : s.popEntry = none := by
  simp [State.popEntry, h]

/-- What `Pop()` can answer: the stack is empty, or it ends in the popped entry. -/
theorem State.popEntry_cases (s : State) :
    (s.stack = [] ∧ s.popEntry = none) ∨
      ∃ below e, s.stack = below ++ [e] ∧ s.popEntry = some (e, { s with stack := below }) := by
  rcases List.eq_nil_or_concat s.stack with h | ⟨below, e, h⟩
  · exact .inl ⟨h, State.popEntry_of_empty h⟩
  · rw [List.concat_eq_append] at h
    exact .inr ⟨below, e, h, State.popEntry_of_top h⟩

/-- The stack is full exactly when it holds STACK_CAPACITY entries (R130). -/
theorem State.stackFull_iff (s : State) : s.stackFull = true ↔ s.cfg.stackCapacity = some s.stack.length := by
  unfold State.stackFull
  cases h : s.cfg.stackCapacity with
  | none => simp
  | some n => rw [beq_iff_eq, Option.some.injEq]; exact eq_comm

end Sys2Proof.Machine
end

