-- ==== Sys2Proof/Laws/Operands.lean ====
section
/-! SUPPORT. One lemma for what each operand resolution can do (30_encoding.md R76, R77, R78) and for what a push can
do (41_data_stack.md R130). -/

namespace Sys2Proof.Machine

/-- The two resolutions compute the same result on every operand (R77). -/
theorem resolveAddress_eq (s : State) (o : Operand) : resolveAddress s o = resolveValue s o := by
  cases o <;> rfl

/-- An operand resolves to no value exactly when its word is invalid. -/
theorem resolveValue_eq_none {s : State} {o : Operand} : resolveValue s o = none ↔ ∃ w, o = .invalid w := by
  cases o <;> simp [resolveValue]

theorem resolveDest_eq_some {o : Operand} {d : RegIdx} : resolveDest o = some d ↔ o = .register d := by
  cases o <;> simp [resolveDest]

/-- Resolution reads the register file alone. -/
theorem resolveValue_congr {s t : State} (h : t.regs = s.regs) (o : Operand) :
    resolveValue t o = resolveValue s o := by
  cases o <;> simp [resolveValue, State.readReg_congr h]

/-! ## Where resolution succeeds -/

theorem withValue_some {s : State} {o : Operand} {v : Value} (h : resolveValue s o = some v) (k : Nat)
    (cont : Value → StepOutcome) : withValue k o s cont = cont v := by
  simp [withValue, h]

theorem withAddress_some {s : State} {o : Operand} {v : Value} (h : resolveAddress s o = some v) (k : Nat)
    (cont : Value → StepOutcome) : withAddress k o s cont = cont v := by
  simp [withAddress, h]

@[simp] theorem withDest_register (r : RegIdx) (s : State) (k : Nat) (cont : RegIdx → StepOutcome) :
    withDest k (.register r) s cont = cont r := rfl

/-! ## Where it fails -/

theorem withValue_none {s : State} {o : Operand} (h : resolveValue s o = none) (k : Nat)
    (cont : Value → StepOutcome) : withValue k o s cont = .next (s.raised .invalidOperand o.word k) := by
  simp [withValue, h, raise]

theorem withAddress_none {s : State} {o : Operand} (h : resolveAddress s o = none) (k : Nat)
    (cont : Value → StepOutcome) : withAddress k o s cont = .next (s.raised .invalidOperand o.word k) := by
  simp [withAddress, h, raise]

theorem withDest_none {o : Operand} (h : resolveDest o = none) (s : State) (k : Nat) (cont : RegIdx → StepOutcome) :
    withDest k o s cont = .next (s.raised .invalidDestination o.word k) := by
  simp [withDest, h, raise]

/-! ## Everything they can do -/

theorem withValue_next {k : Nat} {o : Operand} {s t : State} {cont : Value → StepOutcome}
    (h : withValue k o s cont = .next t) :
    (∃ v, resolveValue s o = some v ∧ cont v = .next t) ∨
      (resolveValue s o = none ∧ t = s.raised .invalidOperand o.word k) := by
  unfold withValue at h
  split at h
  · exact .inl ⟨_, by assumption, h⟩
  · exact .inr ⟨by assumption, (Host.Outcome.next.inj h).symm⟩

theorem withAddress_next {k : Nat} {o : Operand} {s t : State} {cont : Value → StepOutcome}
    (h : withAddress k o s cont = .next t) :
    (∃ v, resolveValue s o = some v ∧ cont v = .next t) ∨
      (resolveValue s o = none ∧ t = s.raised .invalidOperand o.word k) := by
  unfold withAddress at h
  split at h
  · exact .inl ⟨_, by rwa [← resolveAddress_eq], h⟩
  · exact .inr ⟨by rwa [← resolveAddress_eq], (Host.Outcome.next.inj h).symm⟩

theorem withDest_next {k : Nat} {o : Operand} {s t : State} {cont : RegIdx → StepOutcome}
    (h : withDest k o s cont = .next t) :
    (∃ d, o = .register d ∧ cont d = .next t) ∨
      (resolveDest o = none ∧ t = s.raised .invalidDestination o.word k) := by
  unfold withDest at h
  split at h
  · exact .inl ⟨_, resolveDest_eq_some.mp (by assumption), h⟩
  · exact .inr ⟨by assumption, (Host.Outcome.next.inj h).symm⟩

/-! ## Pushing -/

theorem withPush_room {s : State} (h : s.cfg.stackCapacity ≠ some s.stack.length) (op v : Word)
    (cont : State → StepOutcome) : withPush op v s cont = cont (s.pushEntry v) := by
  unfold withPush
  rw [if_neg (fun hf => h ((State.stackFull_iff s).mp hf))]

theorem withPush_full {s : State} (h : s.cfg.stackCapacity = some s.stack.length) (op v : Word)
    (cont : State → StepOutcome) : withPush op v s cont = .next (s.raised .stackOverflow op 0) := by
  unfold withPush
  rw [if_pos ((State.stackFull_iff s).mpr h)]
  rfl

theorem withPush_next {op v : Word} {s t : State} {cont : State → StepOutcome} (h : withPush op v s cont = .next t) :
    (s.cfg.stackCapacity ≠ some s.stack.length ∧ cont (s.pushEntry v) = .next t) ∨
      (s.cfg.stackCapacity = some s.stack.length ∧ t = s.raised .stackOverflow op 0) := by
  by_cases hc : s.cfg.stackCapacity = some s.stack.length
  · rw [withPush_full hc] at h
    exact .inr ⟨hc, (Host.Outcome.next.inj h).symm⟩
  · rw [withPush_room hc] at h
    exact .inl ⟨hc, h⟩

end Sys2Proof.Machine
end

