-- ==== Sys2Proof/Laws/Exec.lean ====
section
/-! SUPPORT. Said once: what an instruction can do (`Effect`), that every instruction does one of these
(`exec_effect`), and that none of them stops the model (`exec_next`). Later proofs split on `Effect` and unfold no
meaning. -/

namespace Sys2Proof.Machine

/-- The faults an instruction can raise, with the word and index they report (60_exceptions.md R225). -/
inductive RaiseRow (i : Instr) (s : State) : StopCode → Word → Nat → Prop where
  | operand {q : OperandKind} {o : Operand} {k : Nat} : q ≠ .dest → i.operands[k]? = some (q, o) →
      resolveValue s o = none → RaiseRow i s .invalidOperand o.word (k + 1)
  | dest {o : Operand} : i.operands[0]? = some (.dest, o) → resolveDest o = none →
      RaiseRow i s .invalidDestination o.word 1
  | divisionByZero {r a b : Operand} : i = .mod r a b → resolveValue s b = some 0 →
      RaiseRow i s .divisionByZero 11 0
  | underflow {r : Operand} : i = .pop r → s.stack = [] → RaiseRow i s .stackUnderflow 3 0
  | overflowPush {a : Operand} : i = .push a → s.cfg.stackCapacity = some s.stack.length →
      RaiseRow i s .stackOverflow 2 0
  | overflowCall {t : Operand} : i = .call t → s.cfg.stackCapacity = some s.stack.length →
      RaiseRow i s .stackOverflow 17 0

/-- Everything instruction `i` can do in state `s`, with the state it leaves. -/
inductive Effect (i : Instr) (s : State) : State → Prop where
  | raised {c : StopCode} {w : Word} {k : Nat} : RaiseRow i s c w k → Effect i s (s.raised c w k)
  | halted : i = .halt → Effect i s (s.stopped .halt 0 (s.after 1))
  | retEmpty : i = .ret → s.stack = [] → Effect i s (s.stopped .retEmpty 18 (s.after 1))
  | wrote {d : RegIdx} {v : Nat} : i.operands[0]? = some (.dest, .register d) →
      Effect i s ((s.writeReg d v).advance i.length)
  | popped {d : RegIdx} {below : List Word} {e : Word} : i = .pop (.register d) → s.stack = below ++ [e] →
      Effect i s ((State.writeReg d e.toNat { s with stack := below }).advance 2)
  | pushed {a : Operand} {x : Value} : i = .push a → resolveValue s a = some x →
      s.cfg.stackCapacity ≠ some s.stack.length → Effect i s ((s.pushEntry (valueWord x)).advance 2)
  | jumped {x : Value} : Effect i s (s.setPc (valueWord x))
  | advanced : Effect i s (s.advance i.length)
  | called {t : Operand} {x : Value} : i = .call t → resolveValue s t = some x →
      s.cfg.stackCapacity ≠ some s.stack.length → Effect i s ((s.pushEntry (s.after 2)).setPc (valueWord x))
  | returned {below : List Word} {e : Word} : i = .ret → s.stack = below ++ [e] →
      Effect i s (State.setPc e { s with stack := below })
  | stored {a b : Operand} {x y : Value} : i = .wmem a b → resolveValue s a = some x → resolveValue s b = some y →
      Effect i s ((s.memWrite x y).advance 3)
  | sent {a : Operand} {x : Value} : i = .out a → resolveValue s a = some x →
      Effect i s ((s.sendByte (BitVec.ofNat 8 (x.toNat % 256))).advance 2)
  | waited {d : RegIdx} : i = .inp (.register d) → Effect i s (s.startIn d)

/-- The shape of the two-operand ALU instructions. -/
theorem aluBinary_effect {i : Instr} {r a b : Operand} {s t : State} {act : RegIdx → Value → Value → StepOutcome}
    (hi : i.operands = [(.dest, r), (.value, a), (.value, b)]) (h : aluBinary r a b s act = .next t) :
    Effect i s t ∨ ∃ d x y, i.operands[0]? = some (.dest, .register d) ∧ resolveValue s a = some x ∧
      resolveValue s b = some y ∧ act d x y = .next t := by
  rcases withDest_next h with ⟨d, rfl, h⟩ | ⟨hn, rfl⟩
  · rcases withValue_next h with ⟨x, hx, h⟩ | ⟨hn, rfl⟩
    · rcases withValue_next h with ⟨y, hy, h⟩ | ⟨hn, rfl⟩
      · exact .inr ⟨d, x, y, by simp [hi], hx, hy, h⟩
      · exact .inl (.raised (.operand (q := .value) (k := 2) (by simp) (by simp [hi]) hn))
    · exact .inl (.raised (.operand (q := .value) (k := 1) (by simp) (by simp [hi]) hn))
  · exact .inl (.raised (.dest (by simp [hi]) hn))

/-- A two-operand ALU instruction that always writes its result. -/
theorem aluBinary_write_effect {i : Instr} {op : AluOp} {r a b : Operand} {s t : State}
    (hi : i.operands = [(.dest, r), (.value, a), (.value, b)])
    (h : (aluBinary r a b s fun d x y => aluWrite op 4 d x y s) = .next t) : Effect i s t := by
  rcases aluBinary_effect hi h with he | ⟨d, x, y, hd, -, -, h⟩
  · exact he
  · have hl : 4 = i.length := by simp [Instr.length, hi]
    rw [aluWrite, hl] at h
    exact Host.Outcome.next.inj h ▸ Effect.wrote hd

/-- The shape of the instructions with a destination and one value: SET, NOT, RMEM. -/
theorem destValue_effect {i : Instr} {r a : Operand} {s t : State} {v : Value → Nat}
    (hi : i.operands = [(.dest, r), (.value, a)])
    (h : (withDest 1 r s fun d => withValue 2 a s fun x =>
      (.next ((s.writeReg d (v x)).advance 3) : StepOutcome)) = .next t) : Effect i s t := by
  rcases withDest_next h with ⟨d, rfl, h⟩ | ⟨hn, rfl⟩
  · rcases withValue_next h with ⟨x, -, h⟩ | ⟨hn, rfl⟩
    · have hl : 3 = i.length := by simp [Instr.length, hi]
      rw [hl] at h
      exact Host.Outcome.next.inj h ▸ Effect.wrote (by simp [hi])
    · exact .raised (.operand (q := .value) (k := 1) (by simp) (by simp [hi]) hn)
  · exact .raised (.dest (by simp [hi]) hn)

/-- The shape of the conditional jumps. -/
theorem branch_effect {i : Instr} {a o : Operand} {s t : State} {taken : Value → Bool}
    (hi : i.operands = [(.value, a), (.target, o)])
    (h : (withValue 1 a s fun v => withAddress 2 o s fun x =>
      (.next (if taken v then s.setPc (valueWord x) else s.advance 3) : StepOutcome)) = .next t) : Effect i s t := by
  rcases withValue_next h with ⟨v, -, h⟩ | ⟨hn, rfl⟩
  · rcases withAddress_next h with ⟨x, -, h⟩ | ⟨hn, rfl⟩
    · have hl : 3 = i.length := by simp [Instr.length, hi]
      rw [hl] at h
      cases hv : taken v <;> simp only [hv] at h <;> exact Host.Outcome.next.inj h ▸ (by constructor)
    · exact .raised (.operand (q := .target) (k := 1) (by simp) (by simp [hi]) hn)
  · exact .raised (.operand (q := .value) (k := 0) (by simp) (by simp [hi]) hn)

/-- Whatever an instruction does is one of its effects. -/
theorem exec_effect {i : Instr} {s t : State} (h : exec i s = .next t) : Effect i s t := by
  cases i with
  | halt => exact Host.Outcome.next.inj h ▸ .halted rfl
  | set r a => exact destValue_effect rfl h
  | push a =>
    rcases withValue_next h with ⟨x, hx, h⟩ | ⟨hn, rfl⟩
    · rcases withPush_next h with ⟨hr, h⟩ | ⟨hf, rfl⟩
      · exact Host.Outcome.next.inj h ▸ .pushed rfl hx hr
      · exact .raised (.overflowPush rfl hf)
    · exact .raised (.operand (q := .value) (k := 0) (by simp) rfl hn)
  | pop r =>
    rcases withDest_next h with ⟨d, rfl, hd⟩ | ⟨hn, rfl⟩
    · rcases State.popEntry_cases s with ⟨hs, hp⟩ | ⟨below, e, hs, hp⟩
      · rw [hp] at hd
        exact Host.Outcome.next.inj hd ▸ .raised (.underflow rfl hs)
      · rw [hp] at hd
        exact Host.Outcome.next.inj hd ▸ .popped rfl hs
    · exact .raised (.dest rfl hn)
  | eq r a b => exact aluBinary_write_effect rfl h
  | gt r a b => exact aluBinary_write_effect rfl h
  | jmp o =>
    rcases withAddress_next h with ⟨x, -, h⟩ | ⟨hn, rfl⟩
    · exact Host.Outcome.next.inj h ▸ .jumped
    · exact .raised (.operand (q := .target) (k := 0) (by simp) rfl hn)
  | jt a o => exact branch_effect (taken := testsTrue) rfl h
  | jf a o =>
    refine branch_effect (taken := fun v => !testsTrue v) rfl ?_
    rw [← h]
    simp only [exec, execJf]
    congr; funext v; congr; funext x
    cases testsTrue v <;> rfl
  | add r a b => exact aluBinary_write_effect rfl h
  | mult r a b => exact aluBinary_write_effect rfl h
  | mod r a b =>
    rcases aluBinary_effect (i := .mod r a b) rfl h with he | ⟨d, x, y, hd, -, hy, h⟩
    · exact he
    · by_cases hz : y = 0
      · rw [if_pos hz] at h
        exact Host.Outcome.next.inj h ▸ .raised (.divisionByZero rfl (hz ▸ hy))
      · rw [if_neg hz] at h
        exact Host.Outcome.next.inj h ▸ .wrote hd
  | and r a b => exact aluBinary_write_effect rfl h
  | or r a b => exact aluBinary_write_effect rfl h
  | not r a => exact destValue_effect (v := fun x => (alu .not x 0).toNat) rfl h
  | rmem r a => exact destValue_effect (v := fun x => (s.memRead x).toNat) rfl h
  | wmem a b =>
    rcases withValue_next h with ⟨x, hx, h⟩ | ⟨hn, rfl⟩
    · rcases withValue_next h with ⟨y, hy, h⟩ | ⟨hn, rfl⟩
      · exact Host.Outcome.next.inj h ▸ .stored rfl hx hy
      · exact .raised (.operand (q := .value) (k := 1) (by simp) rfl hn)
    · exact .raised (.operand (q := .value) (k := 0) (by simp) rfl hn)
  | call o =>
    rcases withAddress_next h with ⟨x, hx, h⟩ | ⟨hn, rfl⟩
    · rcases withPush_next h with ⟨hr, h⟩ | ⟨hf, rfl⟩
      · exact Host.Outcome.next.inj h ▸ .called rfl hx hr
      · exact .raised (.overflowCall rfl hf)
    · exact .raised (.operand (q := .target) (k := 0) (by simp) rfl hn)
  | ret =>
    simp only [exec, execRet] at h
    rcases State.popEntry_cases s with ⟨hs, hp⟩ | ⟨below, e, hs, hp⟩
    · rw [hp] at h
      exact Host.Outcome.next.inj h ▸ .retEmpty rfl hs
    · rw [hp] at h
      exact Host.Outcome.next.inj h ▸ .returned rfl hs
  | out a =>
    rcases withValue_next h with ⟨x, hx, h⟩ | ⟨hn, rfl⟩
    · exact Host.Outcome.next.inj h ▸ .sent rfl hx
    · exact .raised (.operand (q := .value) (k := 0) (by simp) rfl hn)
  | inp r =>
    rcases withDest_next h with ⟨d, rfl, h⟩ | ⟨hn, rfl⟩
    · exact Host.Outcome.next.inj h ▸ .waited rfl
    · exact .raised (.dest rfl hn)
  | noop => exact Host.Outcome.next.inj h ▸ .advanced

/-- An outcome that is a next state. -/
abbrev IsNext (o : StepOutcome) : Prop := ∃ t, o = .next t

theorem withValue_isNext {k : Nat} {o : Operand} {s : State} {cont : Value → StepOutcome}
    (h : ∀ v, IsNext (cont v)) : IsNext (withValue k o s cont) := by
  unfold withValue
  split
  · exact h _
  · exact ⟨_, rfl⟩

theorem withAddress_isNext {k : Nat} {o : Operand} {s : State} {cont : Value → StepOutcome}
    (h : ∀ v, IsNext (cont v)) : IsNext (withAddress k o s cont) := by
  unfold withAddress
  split
  · exact h _
  · exact ⟨_, rfl⟩

theorem withDest_isNext {k : Nat} {o : Operand} {s : State} {cont : RegIdx → StepOutcome}
    (h : ∀ d, IsNext (cont d)) : IsNext (withDest k o s cont) := by
  unfold withDest
  split
  · exact h _
  · exact ⟨_, rfl⟩

theorem withPush_isNext {op v : Word} {s : State} {cont : State → StepOutcome} (h : ∀ t, IsNext (cont t)) :
    IsNext (withPush op v s cont) := by
  unfold withPush
  split
  · exact ⟨_, rfl⟩
  · exact h _

theorem aluBinary_isNext {r a b : Operand} {s : State} {act : RegIdx → Value → Value → StepOutcome}
    (h : ∀ d x y, IsNext (act d x y)) : IsNext (aluBinary r a b s act) :=
  withDest_isNext fun _ => withValue_isNext fun _ => withValue_isNext fun _ => h _ _ _

/-- Every instruction answers a next state, in every state and with every operand: none is refused, and the faults
of the hardware are states. -/
theorem exec_next (i : Instr) (s : State) : IsNext (exec i s) := by
  cases i with
  | halt => exact ⟨_, rfl⟩
  | set r a => exact withDest_isNext fun _ => withValue_isNext fun _ => ⟨_, rfl⟩
  | push a => exact withValue_isNext fun _ => withPush_isNext fun _ => ⟨_, rfl⟩
  | pop r => exact withDest_isNext fun _ => by cases s.popEntry <;> exact ⟨_, rfl⟩
  | eq r a b => exact aluBinary_isNext fun _ _ _ => ⟨_, rfl⟩
  | gt r a b => exact aluBinary_isNext fun _ _ _ => ⟨_, rfl⟩
  | jmp t => exact withAddress_isNext fun _ => ⟨_, rfl⟩
  | jt a t => exact withValue_isNext fun _ => withAddress_isNext fun _ => ⟨_, rfl⟩
  | jf a t => exact withValue_isNext fun _ => withAddress_isNext fun _ => ⟨_, rfl⟩
  | add r a b => exact aluBinary_isNext fun _ _ _ => ⟨_, rfl⟩
  | mult r a b => exact aluBinary_isNext fun _ _ _ => ⟨_, rfl⟩
  | mod r a b => exact aluBinary_isNext fun _ _ _ => by split <;> exact ⟨_, rfl⟩
  | and r a b => exact aluBinary_isNext fun _ _ _ => ⟨_, rfl⟩
  | or r a b => exact aluBinary_isNext fun _ _ _ => ⟨_, rfl⟩
  | not r a => exact withDest_isNext fun _ => withValue_isNext fun _ => ⟨_, rfl⟩
  | rmem r a => exact withDest_isNext fun _ => withValue_isNext fun _ => ⟨_, rfl⟩
  | wmem a b => exact withValue_isNext fun _ => withValue_isNext fun _ => ⟨_, rfl⟩
  | call t => exact withAddress_isNext fun _ => withPush_isNext fun _ => ⟨_, rfl⟩
  | ret => simp only [exec, execRet]; cases s.popEntry <;> exact ⟨_, rfl⟩
  | out a => exact withValue_isNext fun _ => ⟨_, rfl⟩
  | inp r => exact withDest_isNext fun _ => ⟨_, rfl⟩
  | noop => exact ⟨_, rfl⟩

end Sys2Proof.Machine
end

