-- ==== Sys2Proof/Laws/PerInstr.lean ====
section
/-! SUPPORT. The family `EncodedLength` of LAWS.json: every instruction's encoding begins with its opcode word and is
`1 + arity` words long (30_encoding.md R72, R81), its arity being that of the table of operand kinds (R73). -/

namespace Sys2Proof.Laws.EncodedLength

/-- The words of `i`: the opcode word first, then as many as its opcode's arity. -/
def Statement (i : Instr) : Prop :=
  (encode i).head? = some i.opcode ∧ (encode i).length = 1 + arity i.opcode ∧ i.opcode.toNat < 22

theorem halt : Statement .halt := ⟨rfl, rfl, by decide⟩
theorem set (r a : Operand) : Statement (.set r a) := ⟨rfl, rfl, by simp [Instr.opcode]⟩
theorem push (a : Operand) : Statement (.push a) := ⟨rfl, rfl, by simp [Instr.opcode]⟩
theorem pop (r : Operand) : Statement (.pop r) := ⟨rfl, rfl, by simp [Instr.opcode]⟩
theorem eq (r a b : Operand) : Statement (.eq r a b) := ⟨rfl, rfl, by simp [Instr.opcode]⟩
theorem gt (r a b : Operand) : Statement (.gt r a b) := ⟨rfl, rfl, by simp [Instr.opcode]⟩
theorem jmp (t : Operand) : Statement (.jmp t) := ⟨rfl, rfl, by simp [Instr.opcode]⟩
theorem jt (a t : Operand) : Statement (.jt a t) := ⟨rfl, rfl, by simp [Instr.opcode]⟩
theorem jf (a t : Operand) : Statement (.jf a t) := ⟨rfl, rfl, by simp [Instr.opcode]⟩
theorem add (r a b : Operand) : Statement (.add r a b) := ⟨rfl, rfl, by simp [Instr.opcode]⟩
theorem mult (r a b : Operand) : Statement (.mult r a b) := ⟨rfl, rfl, by simp [Instr.opcode]⟩
theorem mod (r a b : Operand) : Statement (.mod r a b) := ⟨rfl, rfl, by simp [Instr.opcode]⟩
theorem and (r a b : Operand) : Statement (.and r a b) := ⟨rfl, rfl, by simp [Instr.opcode]⟩
theorem or (r a b : Operand) : Statement (.or r a b) := ⟨rfl, rfl, by simp [Instr.opcode]⟩
theorem not (r a : Operand) : Statement (.not r a) := ⟨rfl, rfl, by simp [Instr.opcode]⟩
theorem rmem (r a : Operand) : Statement (.rmem r a) := ⟨rfl, rfl, by simp [Instr.opcode]⟩
theorem wmem (a b : Operand) : Statement (.wmem a b) := ⟨rfl, rfl, by simp [Instr.opcode]⟩
theorem call (t : Operand) : Statement (.call t) := ⟨rfl, rfl, by simp [Instr.opcode]⟩
theorem ret : Statement .ret := ⟨rfl, rfl, by decide⟩
theorem out (a : Operand) : Statement (.out a) := ⟨rfl, rfl, by simp [Instr.opcode]⟩
theorem inp (r : Operand) : Statement (.inp r) := ⟨rfl, rfl, by simp [Instr.opcode]⟩
theorem noop : Statement .noop := ⟨rfl, rfl, by decide⟩

end Sys2Proof.Laws.EncodedLength
end

