-- ==== Sys2Proof/Laws/Step.lean ====
section
/-! SUPPORT. Said once: everything a step can do (`StepEffect`, `step_effect`), and the induction over the states a
run reaches. -/

namespace Sys2Proof.Machine

theorem step_of_decoded {s : State} {i : Instr} {rest : List Word} (hr : s.run = .running)
    (hd : decode (fetch s.mem s.pc.toNat) = .ok (i, rest)) : step s = exec i s := by
  simp only [step, hr, hd]

theorem step_of_error {s : State} {e : DecodeError} (hr : s.run = .running)
    (hd : decode (fetch s.mem s.pc.toNat) = .error e) : step s = decodeStop e s := by
  simp only [step, hr, hd]

theorem step_waiting {s : State} (hr : s.run = .waitInput) : step s = completeIn s := by simp only [step, hr]

/-- At 32768 and above nothing is fetched (40_cycle.md R102). -/
theorem step_outside {s : State} (hr : s.run = .running) (h : 32768 ≤ s.pc.toNat) :
    step s = decodeStop .noOpcode s :=
  step_of_error hr (by rw [fetch_outside _ h]; rfl)

/-- An instruction decoded from memory is well formed: its operands are classes of words. -/
theorem wellFormed_of_operands {i : Instr} {ks : List OperandKind} {ws : List Word}
    (h : i.operands = ks.zip (ws.map classify)) : i.wellFormed = true := by
  unfold Instr.wellFormed
  rw [h, List.all_eq_true]
  intro p hp
  obtain ⟨w, -, hw⟩ := List.mem_map.mp (List.of_mem_zip (a := p.1) (b := p.2) hp).2
  rw [← hw]
  exact classify_canonical w

/-- Everything a step can do in state `s`, with the state it leaves. -/
inductive StepEffect (s : State) : State → Prop where
  | executed {i : Instr} {t : State} : s.run = .running → decode (fetch s.mem s.pc.toNat) = .ok (i, []) →
      i.wellFormed = true → s.pc.toNat + i.length ≤ 32768 → exec i s = .next t → Effect i s t → StepEffect s t
  | endOfMemory : s.run = .running → s.pc.toNat = 32768 → StepEffect s (s.stopped .endOfMemory 0 s.pc)
  | invalidOpcode {w0 : Word} : s.run = .running → s.pc.toNat < 32768 → w0 = s.mem.read s.pc.toNat →
      22 ≤ w0.toNat → StepEffect s (s.raised .invalidOpcode w0 0)
  | fetchPast {w0 : Word} {k : Nat} : s.run = .running → w0 = s.mem.read s.pc.toNat → w0.toNat < 22 → 1 ≤ k →
      k ≤ 3 → s.pc.toNat + k = 32768 → StepEffect s (s.raised .fetchOutOfRange w0 k)
  | completed {c : Byte} {rest : List Byte} : s.run = .waitInput → s.input = c :: rest →
      StepEffect s (s.finishIn c rest)

/-- Whatever a step does is one of its effects. -/
theorem step_effect {s t : State} (h : step s = .next t) : StepEffect s t := by
  cases hr : s.run with
  | running =>
    by_cases hp : s.pc.toNat < 32768
    · rcases decode_fetch_cases s.mem hp with ⟨hw, hd⟩ | ⟨ks, k, hk, h1, h3, hpk, hd⟩ | ⟨ks, i, hk, hin, hd, ho, hi⟩
      · rw [step_of_error hr hd] at h
        exact Host.Outcome.next.inj h ▸ .invalidOpcode hr hp rfl hw
      · rw [step_of_error hr hd] at h
        have hv := decode_valid hk []
        exact Host.Outcome.next.inj h ▸ .fetchPast hr rfl hv.opcode h1 (Nat.le_trans h3 hv.arity) hpk
      · rw [step_of_decoded hr hd] at h
        have hl : i.length = 1 + ks.length := by simp [Instr.length, hi]
        exact .executed hr hd (wellFormed_of_operands hi) (by omega) h (exec_effect h)
    · rw [step_outside hr (by omega)] at h
      simp only [decodeStop] at h
      split at h
      · exact Host.Outcome.next.inj h ▸ .endOfMemory hr (by assumption)
      · cases h
  | waitInput =>
    rw [step_waiting hr] at h
    unfold completeIn at h
    split at h
    · cases h
    · exact Host.Outcome.next.inj h ▸ .completed hr (by assumption)
  | halted => simp only [step, hr] at h; cases h
  | faulted => simp only [step, hr] at h; cases h

/-- What holds of the first state and is kept by every step holds of every state a run reaches. -/
theorem reaches_induction {P : State → Prop} {s : State} (h0 : P s)
    (hs : ∀ t u, P t → step t = .next u → P u) {t : State} (h : Reaches s t) : P t := by
  induction h with
  | start => exact h0
  | next _ hstep ih => exact hs _ _ ih hstep

end Sys2Proof.Machine
end

