-- ==== Sys2Proof/Tests/Slice0.lean ====
section
/-! SUPPORT. Small tests, their expected results from spec/95_test_vectors.md (the vector's number is named) and from
the encoding examples of 30_encoding.md R85, and one witness for the hypotheses of each statement. -/

namespace Sys2Proof.Tests

open Sys2Proof Sys2Proof.Machine

/-! ## Helpers -/

/-- The reset state with the words at address 0, registers r0 to r7 and a stack. -/
def machine (words : List Word) (regs : Vector Value 8) (stack : List Word) : State :=
  { State.reset with mem := Memory.ofWords 0 words, regs := regs, stack := stack }

/-- All registers 0. -/
def zeros : Vector Value 8 := Vector.replicate 8 0

/-- The reset state with the words at address 0. -/
def placed (words : List Word) : State := machine words zeros []

/-- The state an outcome gives. -/
def stateOf : StepOutcome → Option State
  | .next s => some s
  | .fault _ => none
  | .refused _ => none

/-- What is read off the state after one step. -/
def see {α : Type} (s : State) (f : State → α) : Option α := (stateOf (step s)).map f

/-- run, stop_code, stop_pc, stop_word, stop_index and pc, as 95_test_vectors.md writes an end. -/
def ending (s : State) : Run × StopCode × Word × Word × BitVec 2 × Word :=
  (s.run, s.stop.code, s.stop.pc, s.stop.word, s.stop.index, s.pc)

/-! ## Decoding, word by word from R72, R73, R75, R80 -/

theorem test_decode_format_zero :
    decode [0] = .ok (.halt, []) ∧ decode [18] = .ok (.ret, []) ∧ decode [21] = .ok (.noop, []) := by decide

theorem test_decode_format_one :
    decode [2, 7] = .ok (.push (.literal 7), []) ∧ decode [3, 32769] = .ok (.pop (.register 1), []) ∧
    decode [6, 100] = .ok (.jmp (.literal 100), []) ∧ decode [17, 32773] = .ok (.call (.register 5), []) ∧
    decode [19, 32768] = .ok (.out (.register 0), []) ∧ decode [20, 32771] = .ok (.inp (.register 3), []) := by decide

theorem test_decode_format_two :
    decode [1, 32768, 72] = .ok (.set (.register 0) (.literal 72), []) ∧
    decode [7, 32775, 32767] = .ok (.jt (.register 7) (.literal 32767), []) ∧
    decode [8, 32768, 20] = .ok (.jf (.register 0) (.literal 20), []) ∧
    decode [14, 32770, 32768] = .ok (.not (.register 2) (.register 0), []) ∧
    decode [15, 32768, 16] = .ok (.rmem (.register 0) (.literal 16), []) ∧
    decode [16, 17, 32768] = .ok (.wmem (.literal 17) (.register 0), []) := by decide

theorem test_decode_format_three :
    decode [4, 32770, 7, 8] = .ok (.eq (.register 2) (.literal 7) (.literal 8), []) ∧
    decode [5, 32768, 32767, 0] = .ok (.gt (.register 0) (.literal 32767) (.literal 0), []) ∧
    decode [9, 32768, 32769, 4] = .ok (.add (.register 0) (.register 1) (.literal 4), []) ∧
    decode [10, 32768, 200, 300] = .ok (.mult (.register 0) (.literal 200) (.literal 300), []) ∧
    decode [11, 32769, 10, 3] = .ok (.mod (.register 1) (.literal 10) (.literal 3), []) ∧
    decode [12, 32768, 10922, 21845] = .ok (.and (.register 0) (.literal 10922) (.literal 21845), []) ∧
    decode [13, 32768, 10922, 21845] = .ok (.or (.register 0) (.literal 10922) (.literal 21845), []) := by decide

theorem test_decode_rejections :
    decode [] = .error .noOpcode ∧ decode [22, 0] = .error (.invalidOpcode 22) ∧
    decode [32768] = .error (.invalidOpcode 32768) ∧ decode [65535] = .error (.invalidOpcode 65535) ∧
    decode [9, 32768, 1] = .error (.missingOperand 9 3) ∧ decode [2] = .error (.missingOperand 2 1) := by decide

theorem test_classify_at_the_boundaries :
    classify 32767 = .literal 32767 ∧ classify 32768 = .register 0 ∧ classify 32775 = .register 7 ∧
    classify 32776 = .invalid 32776 ∧ classify 65535 = .invalid 65535 := by decide

theorem test_decodeTableWord :
    decodeTableWord 16 9 = some (.add (.literal 0) (.literal 0) (.literal 0)) ∧
    decodeTableWord 48 (1 + 65536 * 32768 + 65536 ^ 2 * 72) = some (.set (.register 0) (.literal 72)) ∧
    decodeTableWord 16 22 = none := by decide

theorem test_encode_words :
    encode (.add (.register 0) (.register 1) (.literal 4)) = [9, 32768, 32769, 4] ∧
    encode (.jt (.register 7) (.literal 32767)) = [7, 32775, 32767] := by decide

theorem test_image_bytes_little_endian :
    imageWords [0x09, 0x00, 0x00, 0x80, 0x01, 0x80, 0x04, 0x00] = some [9, 32768, 32769, 4] ∧
    imageWords [9, 0, 0] = none := by decide

/-! ## Ill-formed and illegal instructions -/

theorem test_wellFormed_refuses_low_invalid_word :
    Instr.wellFormed (.push (.invalid 32775)) = false ∧ Instr.wellFormed (.push (.invalid 32776)) = true ∧
    Instr.wellFormed (.add (.register 0) (.literal 1) (.invalid 5)) = false := by decide

theorem test_legal_refuses_each_bad_operand :
    Instr.legal (.set (.literal 5) (.literal 3)) = false ∧ Instr.legal (.set (.invalid 32776) (.literal 3)) = false ∧
    Instr.legal (.set (.register 0) (.invalid 32776)) = false ∧ Instr.legal (.jmp (.invalid 65535)) = false ∧
    Instr.legal (.set (.register 7) (.register 0)) = true ∧ Instr.legal (.jmp (.register 7)) = true := by decide

/-! ## Fetch, decode and the end of memory -/

theorem test_V1_empty_image_halts : see (placed []) ending = some (.halted, .halt, 0, 0, 0, 1) := by decide

theorem test_V3_end_of_memory :
    see { placed [] with pc := 32768 } ending = some (.halted, .endOfMemory, 32768, 0, 0, 32768) := by decide

theorem test_V4_invalid_opcode : see (placed [22]) ending = some (.faulted, .invalidOpcode, 0, 22, 0, 0) := by decide

theorem test_V6_first_operand_past_the_end :
    see { placed [] with pc := 32767, mem := [(32767, 9)] } ending =
      some (.faulted, .fetchOutOfRange, 32767, 9, 1, 32767) := by decide

theorem test_V7_second_operand_past_the_end :
    see { placed [] with pc := 32766, mem := [(32766, 1), (32767, 32768)] } ending =
      some (.faulted, .fetchOutOfRange, 32766, 1, 2, 32766) := by decide

theorem test_V9_first_failing_operand :
    see (placed [9, 40000, 5, 32776]) ending = some (.faulted, .invalidDestination, 0, 40000, 1, 0) := by decide

theorem test_V16_target_of_untaken_jump_faults :
    see (placed [7, 0, 40000]) ending = some (.faulted, .invalidOperand, 0, 40000, 2, 0) := by decide

theorem test_stopped_block_takes_no_step :
    step { placed [21] with run := .halted } = .fault .stopped ∧
    step { placed [21] with run := .faulted } = .fault .stopped := ⟨rfl, rfl⟩

theorem test_withFetchWord_runs_the_word :
    see (State.reset.withFetchWord 48 (1 + 65536 * 32768 + 65536 ^ 2 * 72)) (fun t => (t.readReg 0, t.pc)) =
      some (72, 3) := by decide

/-! ## Data movement and the stack -/

theorem test_V8_set_at_the_top :
    see { placed [] with pc := 32765, mem := [(32765, 1), (32766, 32768), (32767, 5)] } (fun t => (t.readReg 0, t.pc)) =
      some (5, 32768) := by decide

theorem test_V10_set_copies_a_register :
    see (machine [1, 32768, 32775] #v[0, 0, 0, 0, 0, 0, 0, 1234] []) (fun t => (t.readReg 0, t.pc)) =
      some (1234, 3) := by decide

theorem test_V22_push_register :
    see (machine [2, 32771] #v[0, 0, 0, 32767, 0, 0, 0, 0] []) (fun t => (t.stack, t.pc)) = some ([32767], 2) := by
  decide

theorem test_V27_push_onto_full_stack :
    see { machine [2, 3] zeros [1, 2] with cfg := { stackCapacity := some 2 } } ending =
      some (.faulted, .stackOverflow, 0, 2, 0, 0) ∧
    see { machine [2, 3] zeros [1, 2] with cfg := { stackCapacity := some 2 } } (·.stack) = some [1, 2] := by decide

theorem test_V23_pop :
    see (machine [3, 32769] zeros [7, 9]) (fun t => (t.readReg 1, t.stack, t.pc)) = some (9, [7], 2) := by decide

theorem test_V26_pop_of_32768 :
    see (machine [3, 32768] #v[5, 0, 0, 0, 0, 0, 0, 0] [32768]) (fun t => (t.readReg 0, t.stack)) = some (0, []) := by
  decide

theorem test_V24_pop_of_empty_stack :
    see (placed [3, 32769]) ending = some (.faulted, .stackUnderflow, 0, 3, 0, 0) := by decide

/-! ## The ALU -/

theorem test_V32_eq_same_register :
    see (machine [4, 32768, 32768, 32768] #v[99, 0, 0, 0, 0, 0, 0, 0] []) (·.readReg 0) = some 1 := by decide

theorem test_V31_eq_different : see (placed [4, 32770, 0, 32767]) (·.readReg 2) = some 0 := by decide

theorem test_V33_gt_is_unsigned : see (placed [5, 32768, 32767, 0]) (·.readReg 0) = some 1 := by decide

theorem test_V35_gt_of_equals : see (placed [5, 32768, 5, 5]) (·.readReg 0) = some 0 := by decide

theorem test_V39_add_wraps :
    see (machine [9, 32768, 32768, 32768] #v[20000, 0, 0, 0, 0, 0, 0, 0] []) (·.readReg 0) = some 7232 := by decide

theorem test_V42_add_decrements_zero : see (placed [9, 32768, 32768, 32767]) (·.readReg 0) = some 32767 := by decide

theorem test_V43_mult_keeps_low_bits : see (placed [10, 32768, 32767, 32767]) (·.readReg 0) = some 1 := by decide

theorem test_V45_mult : see (placed [10, 32768, 200, 300]) (·.readReg 0) = some 27232 := by decide

theorem test_V48_mod : see (placed [11, 32769, 10, 3]) (·.readReg 1) = some 1 := by decide

theorem test_S8_mod_by_zero :
    see (machine [11, 32768, 32768, 0] #v[7, 0, 0, 0, 0, 0, 0, 0] []) ending =
      some (.faulted, .divisionByZero, 0, 11, 0, 0) ∧
    see (machine [11, 32768, 32768, 0] #v[7, 0, 0, 0, 0, 0, 0, 0] []) (·.readReg 0) = some 7 := by decide

theorem test_V56_and : see (placed [12, 32768, 10922, 21845]) (·.readReg 0) = some 0 := by decide

theorem test_V57_or : see (placed [13, 32768, 10922, 21845]) (·.readReg 0) = some 32767 := by decide

theorem test_V61_not : see (placed [14, 32768, 21845]) (·.readReg 0) = some 10922 := by decide

theorem test_V62_not_in_place :
    see (machine [14, 32768, 32768] #v[12345, 0, 0, 0, 0, 0, 0, 0] []) (fun t => (t.readReg 0, t.pc)) =
      some (20422, 3) := by decide

/-! ## Control transfer -/

theorem test_V77_halt :
    see { placed [] with pc := 7 } ending = some (.halted, .halt, 7, 0, 0, 8) := by decide

theorem test_V64_jmp_register :
    see (machine [6, 32768] #v[32767, 0, 0, 0, 0, 0, 0, 0] []) (·.pc) = some 32767 := by decide

theorem test_V65_V66_jt :
    see (machine [7, 32768, 6] #v[3, 0, 0, 0, 0, 0, 0, 0] []) (·.pc) = some 6 ∧
    see (placed [7, 32768, 6]) (·.pc) = some 3 := by decide

theorem test_V68_V69_jf :
    see (placed [8, 32768, 20]) (·.pc) = some 20 ∧
    see (machine [8, 32768, 20] #v[32767, 0, 0, 0, 0, 0, 0, 0] []) (·.pc) = some 3 := by decide

theorem test_V40_call_at_32766 :
    see { placed [] with pc := 32766, mem := [(32766, 17), (32767, 32760)] } (fun t => (t.stack, t.pc)) =
      some ([32768], 32760) := by decide

theorem test_V71_call_register :
    see (machine [17, 32773] #v[0, 0, 0, 0, 0, 300, 0, 0] []) (fun t => (t.stack, t.pc)) = some ([2], 300) := by decide

theorem test_V73_ret_on_empty_stack : see (placed [18]) ending = some (.halted, .retEmpty, 0, 18, 0, 1) := by decide

theorem test_V74_ret_to_32768 :
    see (machine [18] zeros [32768]) (fun t => (t.stack, t.pc, t.run)) = some ([], 32768, .running) := by decide

theorem test_V76_noop :
    stateOf (step { placed [] with pc := 5, mem := [(5, 21)] }) = some { placed [] with pc := 6, mem := [(5, 21)] } := by
  decide

/-! ## Memory and I/O -/

theorem test_V81_rmem_reduces :
    see { placed [15, 32768, 100] with mem := [(0, 15), (1, 32768), (2, 100), (100, 40000)] } (·.readReg 0) =
      some 7232 := by decide

theorem test_V85_rmem_of_own_opcode : see (placed [15, 32768, 0]) (·.readReg 0) = some 15 := by decide

theorem test_V87_wmem_register_to_register :
    see (machine [16, 32768, 32768] #v[200, 0, 0, 0, 0, 0, 0, 0] []) (fun t => (t.mem.read 200, t.pc)) =
      some (200, 3) := by decide

theorem test_V88_wmem_of_zero_over_own_word :
    see (placed [16, 1, 0]) (fun t => (t.mem, t.pc)) = some ([(0, 16)], 3) := by decide

theorem test_V90_V92_out_masks :
    see (placed [19, 321]) (·.output) = some [65] ∧ see (placed [19, 256]) (·.output) = some [0] := by decide

theorem test_V93_in_waits :
    see { placed [20, 32771] with input := [10] } (fun t => (t.run, t.pc, t.inDest, t.input)) =
      some (.waitInput, 0, 3, [10]) := by decide

theorem test_V93_in_completes :
    see { placed [20, 32771] with input := [10], run := .waitInput, inDest := 3 }
      (fun t => (t.readReg 3, t.pc, t.run, t.input)) = some (10, 2, .running, []) := by decide

theorem test_V94_in_without_a_byte :
    step { placed [20, 32771] with run := .waitInput, inDest := 3 } = .fault .awaitingInput := rfl

/-! ## Load, reset and status -/

theorem test_V96_V98_load :
    loadImage [0x09, 0x00, 0x00, 0x80] = .ok [(0, 9), (1, 32768)] ∧ loadImage [0xFF, 0xFF] = .ok [(0, 65535)] ∧
    loadImage [] = .ok [] ∧ launch Config.unbounded [9, 0, 0] [] = .error .malformedImage := by decide

theorem test_status_codes :
    (placed []).statusOutputs = { run := 0, stopCode := 0, stopPc := 0, stopWord := 0, stopIndex := 0 } ∧
    see (placed [3, 7]) (·.statusOutputs) =
      some { run := 3, stopCode := 18, stopPc := 0, stopWord := 7, stopIndex := 1 } := by decide

/-! ## Witnesses: a state and operands that meet the hypotheses of each statement -/

/-- A machine with a stack, a finite capacity and some high registers. -/
def full : State :=
  { machine [9, 32768, 32775, 4] #v[32767, 1, 2, 3, 4, 5, 6, 32767] [1, 32768] with cfg := { stackCapacity := some 2 } }

theorem witness_DecodeEncodeRoundTrip :
    Instr.wellFormed (.add (.literal 32767) (.register 7) (.invalid 32776)) = true := by decide

theorem witness_EncodeDecodeRoundTrip :
    decode [9, 40000, 32775, 32767, 5] = .ok (.add (.invalid 40000) (.register 7) (.literal 32767), [5]) := by decide

theorem witness_StepRunsInstructionAtPc :
    let i : Instr := .add (.register 0) (.register 7) (.invalid 65535)
    let s : State := { full with pc := 32764, mem := [(32764, 9), (32765, 32768), (32766, 32775), (32767, 65535)] }
    s.run = .running ∧ i.wellFormed = true ∧ s.pc.toNat + i.length ≤ 32768 ∧
    ∀ k (h : k < (encode i).length), s.mem.read (s.pc.toNat + k) = (encode i)[k] := by decide

theorem witness_StepAnswersExactlyWhenAMoveIsEnabled :
    ({ placed [] with pc := 32768 } : State).pc.toNat ≤ 32768 ∧ (placed []).run = .running := by decide

theorem witness_StoppedBlockTakesNoStep :
    State.cleanEnd { placed [] with run := .halted } ∧ State.failedEnd { placed [] with run := .faulted } := ⟨rfl, rfl⟩

theorem witness_StopsAreFinal :
    State.cleanEnd { placed [] with run := .halted } ∧
    Reaches { placed [] with run := .halted } { placed [] with run := .halted } := ⟨rfl, .start⟩

theorem witness_WaitingWithoutAByteMakesNoMove : State.stuck { placed [20, 32768] with run := .waitInput } := ⟨rfl, rfl⟩

theorem witness_EndOfMemoryStopsCleanly :
    ({ placed [] with pc := 32768 } : State).run = .running ∧ ({ placed [] with pc := 32768 } : State).pc.toNat = 32768 := by
  decide

theorem witness_ZeroWordHalts :
    ({ placed [] with pc := 32767 } : State).run = .running ∧ ({ placed [] with pc := 32767 } : State).pc.toNat ≤ 32767 ∧
    ({ placed [] with pc := 32767 } : State).mem.read 32767 = 0 := by decide

theorem witness_InvalidOpcodeFaults :
    (placed [22]).run = .running ∧ (placed [22]).pc.toNat ≤ 32767 ∧ 21 < ((placed [22]).mem.read 0).toNat := by decide

theorem witness_OperandFetchPastTheEndFaults :
    let s : State := { placed [] with pc := 32765, mem := [(32765, 9)] }
    s.run = .running ∧ opcodeKinds (s.mem.read s.pc.toNat).toNat = some [.dest, .value, .value] ∧
    s.pc.toNat + 3 = 32768 := by decide

theorem witness_FirstBadOperandFaults :
    let s : State := { placed [] with pc := 32764, mem := [(32764, 9), (32765, 32768), (32766, 5), (32767, 32776)] }
    s.run = .running ∧ opcodeKinds (s.mem.read s.pc.toNat).toNat = some [.dest, .value, .value] ∧
    s.pc.toNat + 3 ≤ 32767 ∧
    firstBadOperand 1 ([OperandKind.dest, .value, .value].zip
      ((List.range 3).map fun j => s.mem.read (s.pc.toNat + 1 + j))) = some (.invalidOperand, 32776, 3) := by decide

/-- For the fault clause of every instruction: a first operand that fails, and a later one after good ones. -/
theorem witness_FirstFailingOperandFaults :
    (Operand.literal 32767).legalFor .dest = false ∧ (Operand.invalid 32776).legalFor .value = false ∧
    (Operand.invalid 65535).legalFor .target = false ∧
    (Instr.operands (.eq (.register 7) (.literal 32767) (.invalid 32776)))[2]? = some (.value, .invalid 32776) ∧
    (Operand.register 7).legalFor .dest = true ∧ (Operand.literal 32767).legalFor .value = true := by
  decide

theorem witness_LegalOperandsRaiseNoOperandFault :
    Instr.legal (.mod (.register 0) (.literal 1) (.literal 0)) = true ∧ resolveValue full (.literal 0) = some 0 ∧
    Instr.legal (.pop (.register 7)) = true ∧ Instr.legal (.push (.literal 32767)) = true ∧
    Instr.legal (.call (.literal 0)) = true ∧ Instr.legal .halt = true ∧ Instr.legal .ret = true ∧
    Instr.legal (.inp (.register 7)) = true ∧ (stateOf (exec (.inp (.register 7)) full)).map (·.run) = some .waitInput ∧
    (stateOf (exec (.mod (.register 0) (.literal 1) (.literal 0)) full)).map (·.stop.code) = some .divisionByZero ∧
    (stateOf (exec .noop full)).map (·.stop.code) = some .none := by decide

/-- An ADD has no stop of its own. -/
theorem witness_no_own_stop (s : State) (c : StopCode) (r : Run) :
    ¬ OwnStop s (.add (.register 0) (.literal 1) (.literal 2)) c r := fun h => nomatch h

/-- For the statements over operands that resolve: a literal at its largest, and a register. -/
theorem witness_operands_resolve :
    resolveValue full (.literal 32767) = some 32767 ∧ resolveValue full (.register 7) = some 32767 ∧
    resolveAddress full (.literal 32767) = some 32767 ∧ resolveAddress full (.register 0) = some 32767 ∧
    resolveValue full (.literal 0) = some 0 := by decide

/-- For the clauses of PUSH, POP, CALL and RET: a full stack, one with room, an entry of 32768 on top, and none. -/
theorem witness_stack_clauses :
    full.cfg.stackCapacity = some full.stack.length ∧
    (placed []).cfg.stackCapacity ≠ some (placed []).stack.length ∧ full.stack = [1] ++ [32768] ∧
    (placed []).stack = [] := by decide

theorem witness_Only32766CallPushes32768 :
    (stateOf (exec (.call (.literal 0)) { placed [] with pc := 32766 })).map (·.stack) = some ([] ++ [32768]) := by decide

/-- For the clauses of MOD: a divisor of 0 and one that is not. -/
theorem witness_ModWritesRemainder :
    resolveValue full (.literal 0) = some 0 ∧ (0 : Value).toNat = 0 ∧
    resolveValue full (.register 1) = some 1 ∧ (1 : Value).toNat ≠ 0 := by decide

theorem witness_WmemWritesOneCell : full.mem.wf ∧ resolveValue full (.register 7) = some 32767 := by decide

theorem witness_InWaitsThenStoresTheByte :
    let s : State := { placed [20, 32775] with run := .waitInput, inDest := 7, input := [255] }
    s.run = .waitInput ∧ s.input = 255 :: [] := by decide

theorem witness_WmemIsSeenByTheNextFetch :
    let s : State := { placed [] with pc := 32764, mem := [(32764, 16), (32765, 32767), (32766, 22)] }
    s.mem.wf ∧ s.run = .running ∧ decode (fetch s.mem s.pc.toNat) = .ok (.wmem (.literal 32767) (.literal 22), []) ∧
    resolveValue s (.literal 32767) = some 32767 ∧ (32767 : Value).toNat = s.pc.toNat + 3 ∧
    resolveValue s (.literal 22) = some 22 ∧ 21 < (22 : Value).toNat := by decide

/-- For the clause where the stored word is an opcode with an operand. -/
theorem witness_WmemIsSeenByTheNextFetch_opcode :
    let s : State := placed [16, 3, 19, 0, 32775]
    let i : Instr := .out (.register 7)
    s.mem.wf ∧ s.run = .running ∧ decode (fetch s.mem s.pc.toNat) = .ok (.wmem (.literal 3) (.literal 19), []) ∧
    resolveValue s (.literal 3) = some 3 ∧ (3 : Value).toNat = s.pc.toNat + 3 ∧
    resolveValue s (.literal 19) = some 19 ∧ i.wellFormed = true ∧ i.opcode.toNat = (19 : Value).toNat ∧
    (3 : Value).toNat + i.length ≤ 32768 ∧
    ∀ k (h : k < (encode i).length), 1 ≤ k → s.mem.read ((3 : Value).toNat + k) = (encode i)[k] := by decide

theorem witness_HighCellsComeOnlyFromTheImage :
    let s := placed [21, 65535]
    s.mem.wf ∧ see s (fun t => decide (32768 ≤ (t.mem.read 1).toNat)) = some true := by decide

theorem witness_CellReadsAsLastWritten : Memory.wf ([(0, 21), (32767, 65535)] : Memory) := by decide

/-- For the frames: an instruction that goes on, with a register, a cell and a word outside what it writes. -/
theorem witness_frames :
    full.mem.wf ∧ (stateOf (exec (.set (.register 0) (.literal 1)) full)).isSome = true ∧
    (OperandKind.dest, Operand.register 1) ∉ Instr.operands (.set (.register 0) (.literal 1)) := by decide

/-- For the clauses of the stack frame: one entry more, one entry fewer. -/
theorem witness_OnlyStackInstructionsTouchTheStack :
    (stateOf (exec (.push (.literal 7)) (placed []))).map (·.stack) = some [7] ∧
    (stateOf (exec .ret full)).map (·.stack) = some [1] := by decide

theorem witness_OutputOnlyGrowsAndOnlyByOut :
    see (placed [19, 65]) (·.output) = some [65] ∧ see (placed [21]) (·.output) = some [] := by decide

/-- For the clauses on control state: it runs on, it waits, it stops. -/
theorem witness_RunningInstructionsLeaveControlState :
    (stateOf (exec .noop full)).map (·.run) = some .running ∧
    (stateOf (exec (.inp (.register 7)) full)).map (·.run) = some .waitInput ∧
    (stateOf (exec .halt full)).map (·.run) = some .halted ∧
    (stateOf (exec (.push (.literal 0)) full)).map (·.run) = some .faulted := by decide

theorem witness_FaultsLeaveNoPartialEffect : see (placed [65535]) (·.run) = some .faulted := by decide

theorem witness_ProgramsCannotSeeStatusOrPorts :
    SameView full { full with inDest := 7, input := [1], output := [2], freeCount := 3 } ∧ full.run = .running ∧
    (stateOf (step full)).isSome = true :=
  ⟨⟨rfl, rfl, rfl, rfl, rfl, rfl⟩, by decide, by decide⟩

/-- For two states that wait. -/
theorem witness_ProgramsCannotSeeStatusOrPorts_waiting :
    let s : State := { full with run := .waitInput, inDest := 7, input := [255, 1] }
    let u : State := { s with input := [255], output := [2], freeCount := 3 }
    SameView s u ∧ s.run = .waitInput ∧ s.inDest = u.inDest ∧ s.input.head? = u.input.head? ∧
    (stateOf (step s)).isSome = true :=
  ⟨⟨rfl, rfl, rfl, rfl, rfl, rfl⟩, rfl, rfl, rfl, rfl⟩

theorem witness_invariant : full.Inv ∧ (stateOf (step full)).isSome = true :=
  ⟨⟨by decide, by decide, by simp [full, machine], by simp [full, machine], by decide, by decide⟩, by decide⟩

theorem witness_invariant_of_stopped_and_waiting :
    State.Inv { placed [] with pc := 8, run := .halted, stop := { code := .halt, pc := 7, word := 0, index := 0 } } ∧
    State.Inv { placed [3, 7] with
      run := .faulted, stop := { code := .invalidDestination, pc := 0, word := 7, index := 1 } } ∧
    State.Inv { placed [20, 32768] with run := .waitInput } :=
  ⟨⟨by decide, by decide, by simp [placed, machine], by simp [placed, machine, State.reset, Config.unbounded],
      by decide, by decide⟩,
   ⟨by decide, by decide, by simp [placed, machine], by simp [placed, machine, State.reset, Config.unbounded],
      by decide, by decide⟩,
   ⟨by decide, by decide, by simp [placed, machine], by simp [placed, machine, State.reset, Config.unbounded],
      by decide, by decide⟩⟩

theorem witness_ResetMeetsTheInvariant :
    Memory.wf ([(0, 21), (32767, 65535)] : Memory) ∧
    (∀ n, (Config.mk (some 1)).stackCapacity = some n → 0 < n) ∧
    (∀ n, Config.unbounded.stackCapacity = some n → 0 < n) ∧
    (launch (Config.mk (some 1)) [0x15, 0x00] [10]).toOption.isSome = true :=
  ⟨by decide, (fun _ h => by cases h; decide), (fun _ h => nomatch h), by decide⟩

/-- An image, and the empty one. -/
theorem witness_GoodImagesAreLaunchedFromTheResetTable :
    ([0x15, 0x00] : List Byte).length % 2 = 0 ∧ ([0x15, 0x00] : List Byte).length ≤ 65536 ∧
    ([] : List Byte).length % 2 = 0 := by decide

theorem witness_ImageLoadsLittleEndian :
    ([0xFF, 0x80] : List Byte).length % 2 = 0 ∧ ([0xFF, 0x80] : List Byte).length ≤ 65536 ∧
    ([0xFF, 0x80] : List Byte)[2 * 0]? = some 0xFF ∧ ([0xFF, 0x80] : List Byte)[2 * 0 + 1]? = some 0x80 ∧
    ([0xFF, 0x80] : List Byte).length ≤ 2 * 1 := by decide

theorem witness_BadImagesAreNotLaunched :
    ([9] : List Byte).length % 2 = 1 ∧ (List.replicate 65538 (0 : Byte)).length % 2 = 0 ∧
    65536 < (List.replicate 65538 (0 : Byte)).length := by
  rw [List.length_replicate]; decide

end Sys2Proof.Tests
end

/-! ## What no program can see (10_state.md R30, R32)

Two runs that agree on `SameView` are followed in lockstep: every operation of the model keeps `MovesAlike`, so every
instruction does, and so does a step. -/

section
namespace Sys2Proof.Machine

/-- Two runs that started in `s` and `u` stand in `t` and `v`: a program sees the same in both, a waiting IN has latched
the same register, and both have sent the same bytes since the start. -/
structure MovesAlike (s u t v : State) : Prop where
  view : SameView t v
  latched : t.run = .waitInput → t.inDest = v.inDest
  sent : ∃ sent, t.output = s.output ++ sent ∧ v.output = u.output ++ sent

/-- If the first outcome is a next state, so is the second, and the two runs still move alike. -/
def StepsAlike (s u : State) (o p : StepOutcome) : Prop :=
  ∀ t, o = .next t → ∃ v, p = .next v ∧ MovesAlike s u t v

theorem MovesAlike.start {s u : State} (hv : SameView s u) (hl : s.run = .waitInput → s.inDest = u.inDest) :
    MovesAlike s u s u :=
  ⟨hv, hl, [], by simp, by simp⟩

theorem StepsAlike.next {s u t v : State} (h : MovesAlike s u t v) : StepsAlike s u (.next t) (.next v) :=
  fun _ ht => ⟨v, rfl, Host.Outcome.next.inj ht ▸ h⟩

theorem StepsAlike.fault {s u : State} {f : Fault} {p : StepOutcome} : StepsAlike s u (.fault f) p :=
  fun _ ht => nomatch ht

/-! ### What agreeing states read alike -/

section Reads
variable {t v : State} (h : SameView t v)
include h

theorem SameView.after (n : Nat) : t.after n = v.after n := by rw [State.after, State.after, h.pc]

theorem SameView.memRead (a : Value) : t.memRead a = v.memRead a := by rw [State.memRead, State.memRead, h.mem]

theorem SameView.stackFull : t.stackFull = v.stackFull := by
  rw [State.stackFull, State.stackFull, h.cfg, h.stack]

theorem SameView.resolveValue (o : Operand) : resolveValue t o = Machine.resolveValue v o :=
  (resolveValue_congr h.regs.symm o).symm

end Reads

/-- A target is resolved as a value is, with the same fault (30_encoding.md R77). -/
theorem withAddress_eq_withValue (k : Nat) (o : Operand) (s : State) (cont : Value → StepOutcome) :
    withAddress k o s cont = withValue k o s cont := by
  cases o <;> rfl

/-! ### Every operation moves alike -/

namespace MovesAlike
variable {s u t v : State} (h : MovesAlike s u t v)
include h

theorem writeReg (r : RegIdx) (n : Nat) : MovesAlike s u (t.writeReg r n) (v.writeReg r n) :=
  ⟨{ h.view with regs := by simp [h.view.regs] }, h.latched, h.sent⟩

theorem setPc (w : Word) : MovesAlike s u (t.setPc w) (v.setPc w) :=
  ⟨{ h.view with pc := rfl }, h.latched, h.sent⟩

theorem advance (n : Nat) : MovesAlike s u (t.advance n) (v.advance n) := by
  rw [State.advance, State.advance, h.view.after]
  exact h.setPc _

theorem pushEntry (w : Word) : MovesAlike s u (t.pushEntry w) (v.pushEntry w) :=
  ⟨{ h.view with stack := by simp [h.view.stack] }, h.latched, h.sent⟩

theorem dropTop : MovesAlike s u t.dropTop v.dropTop :=
  ⟨{ h.view with stack := by simp [h.view.stack] }, h.latched, h.sent⟩

theorem memWrite (a x : Value) : MovesAlike s u (t.memWrite a x) (v.memWrite a x) :=
  ⟨{ h.view with mem := by simp [h.view.mem] }, h.latched, h.sent⟩

theorem sendByte (b : Byte) : MovesAlike s u (t.sendByte b) (v.sendByte b) := by
  obtain ⟨sent, ht, hv⟩ := h.sent
  exact ⟨{ h.view with }, h.latched, sent ++ [b], by simp [ht], by simp [hv]⟩

theorem raised (c : StopCode) (w : Word) (k : Nat) : MovesAlike s u (t.raised c w k) (v.raised c w k) :=
  ⟨{ h.view with run := rfl }, nofun, h.sent⟩

theorem stopped (c : StopCode) (w p : Word) : MovesAlike s u (t.stopped c w p) (v.stopped c w p) :=
  ⟨{ h.view with run := rfl, pc := rfl }, nofun, h.sent⟩

theorem startIn (d : RegIdx) : MovesAlike s u (t.startIn d) (v.startIn d) :=
  ⟨{ h.view with run := rfl }, fun _ => rfl, h.sent⟩

/-- The byte goes to the same register in both runs. What `in_dest` holds after it may differ: neither waits then. -/
theorem finishIn (hr : t.run = .waitInput) (c : Byte) (rest rest' : List Byte) :
    MovesAlike s u (t.finishIn c rest) (v.finishIn c rest') :=
  ⟨{ h.view with
      pc := by simp [h.view.pc], regs := by simp [h.view.regs, h.latched hr], run := rfl }, nofun, h.sent⟩

/-! ### Operands, pushes and pops -/

theorem withValue {k : Nat} {o : Operand} {f g : Value → StepOutcome} (hfg : ∀ x, StepsAlike s u (f x) (g x)) :
    StepsAlike s u (withValue k o t f) (withValue k o v g) := by
  cases hx : resolveValue t o with
  | some x =>
    rw [withValue_some hx, withValue_some (h.view.resolveValue o ▸ hx)]
    exact hfg x
  | none =>
    rw [withValue_none hx, withValue_none (h.view.resolveValue o ▸ hx)]
    exact .next (h.raised _ _ _)

theorem withAddress {k : Nat} {o : Operand} {f g : Value → StepOutcome} (hfg : ∀ x, StepsAlike s u (f x) (g x)) :
    StepsAlike s u (withAddress k o t f) (withAddress k o v g) := by
  rw [withAddress_eq_withValue, withAddress_eq_withValue]
  exact h.withValue hfg

theorem withDest {k : Nat} {o : Operand} {f g : RegIdx → StepOutcome} (hfg : ∀ d, StepsAlike s u (f d) (g d)) :
    StepsAlike s u (withDest k o t f) (withDest k o v g) := by
  cases hd : resolveDest o with
  | some d =>
    rw [resolveDest_eq_some.mp hd]
    exact hfg d
  | none =>
    rw [withDest_none hd, withDest_none hd]
    exact .next (h.raised _ _ _)

theorem withPush {op w : Word} {f g : State → StepOutcome}
    (hfg : StepsAlike s u (f (t.pushEntry w)) (g (v.pushEntry w))) :
    StepsAlike s u (withPush op w t f) (withPush op w v g) := by
  rw [Machine.withPush, Machine.withPush, ← h.view.stackFull]
  split
  · exact .next (h.raised _ _ _)
  · exact hfg

/-- `Pop()` fails in both runs, or takes the same entry off both stacks. -/
theorem popEntry : (t.popEntry = none ∧ v.popEntry = none) ∨
    ∃ e, t.popEntry = some (e, t.dropTop) ∧ v.popEntry = some (e, v.dropTop) := by
  rw [State.popEntry, State.popEntry, ← h.view.stack]
  cases t.stack.getLast? with
  | none => exact .inl ⟨rfl, rfl⟩
  | some e => exact .inr ⟨e, rfl, rfl⟩

theorem aluBinary {r a b : Operand} {f g : RegIdx → Value → Value → StepOutcome}
    (hfg : ∀ d x y, StepsAlike s u (f d x y) (g d x y)) :
    StepsAlike s u (aluBinary r a b t f) (aluBinary r a b v g) :=
  h.withDest fun d => h.withValue fun x => h.withValue fun y => hfg d x y

theorem aluWrite (op : AluOp) (n : Nat) (d : RegIdx) (x y : Value) :
    StepsAlike s u (aluWrite op n d x y t) (aluWrite op n d x y v) :=
  .next ((h.writeReg d _).advance n)

/-! ### Instructions and steps -/

/-- Every instruction does the same in states a program cannot tell apart. -/
theorem exec (i : Instr) : StepsAlike s u (exec i t) (exec i v) := by
  cases i with
  | halt =>
    show StepsAlike s u (.next (t.stopped _ _ (t.after 1))) (.next (v.stopped _ _ (v.after 1)))
    rw [h.view.after]
    exact .next (h.stopped _ _ _)
  | set r a => exact h.withDest fun d => h.withValue fun x => .next ((h.writeReg d _).advance 3)
  | push a => exact h.withValue fun x => h.withPush (.next ((h.pushEntry _).advance 2))
  | pop r =>
    refine h.withDest fun d => ?_
    rcases h.popEntry with ⟨ht, hv⟩ | ⟨e, ht, hv⟩ <;> rw [ht, hv]
    · exact .next (h.raised _ _ _)
    · exact .next ((h.dropTop.writeReg d _).advance 2)
  | eq r a b => exact h.aluBinary fun d x y => h.aluWrite _ _ d x y
  | gt r a b => exact h.aluBinary fun d x y => h.aluWrite _ _ d x y
  | jmp o => exact h.withAddress fun x => .next (h.setPc _)
  | jt a o =>
    refine h.withValue fun c => h.withAddress fun x => .next ?_
    split
    · exact h.setPc _
    · exact h.advance 3
  | jf a o =>
    refine h.withValue fun c => h.withAddress fun x => .next ?_
    split
    · exact h.advance 3
    · exact h.setPc _
  | add r a b => exact h.aluBinary fun d x y => h.aluWrite _ _ d x y
  | mult r a b => exact h.aluBinary fun d x y => h.aluWrite _ _ d x y
  | mod r a b =>
    refine h.aluBinary fun d x y => ?_
    split
    · exact .next (h.raised _ _ _)
    · exact h.aluWrite _ _ d x y
  | and r a b => exact h.aluBinary fun d x y => h.aluWrite _ _ d x y
  | or r a b => exact h.aluBinary fun d x y => h.aluWrite _ _ d x y
  | not r a => exact h.withDest fun d => h.withValue fun x => h.aluWrite _ _ d x 0
  | rmem r a =>
    refine h.withDest fun d => h.withValue fun x => .next ?_
    rw [h.view.memRead]
    exact (h.writeReg d _).advance 3
  | wmem a b => exact h.withValue fun x => h.withValue fun y => .next ((h.memWrite x y).advance 3)
  | call o =>
    refine h.withAddress fun x => ?_
    rw [h.view.after]
    exact h.withPush (.next ((h.pushEntry _).setPc _))
  | ret =>
    simp only [Machine.exec, execRet]
    rcases h.popEntry with ⟨ht, hv⟩ | ⟨e, ht, hv⟩ <;> rw [ht, hv]
    · rw [h.view.after]
      exact .next (h.stopped _ _ _)
    · exact .next (h.dropTop.setPc e)
  | out a => exact h.withValue fun x => .next ((h.sendByte _).advance 2)
  | inp r => exact h.withDest fun d => .next (h.startIn d)
  | noop => exact .next (h.advance 1)

theorem decodeStop (e : DecodeError) : StepsAlike s u (decodeStop e t) (decodeStop e v) := by
  cases e with
  | noOpcode =>
    simp only [Machine.decodeStop, ← h.view.pc]
    split
    · exact .next (h.stopped _ _ _)
    · exact .fault
  | invalidOpcode w0 => exact .next (h.raised _ _ _)
  | missingOperand w0 k => exact .next (h.raised _ _ _)

/-- IN's second move takes the same byte in both runs, whatever the host offers after it. -/
theorem completeIn (hr : t.run = .waitInput) (hb : t.input.head? = v.input.head?) :
    StepsAlike s u (completeIn t) (completeIn v) := by
  unfold Machine.completeIn
  cases ht : t.input with
  | nil => exact .fault
  | cons c rest =>
    obtain ⟨rest', hv⟩ : ∃ rest', v.input = c :: rest' := by
      rw [← List.head?_eq_some_iff, ← hb, ht, List.head?_cons]
    rw [hv]
    exact .next (h.finishIn hr c rest rest')

theorem step (hb : t.run = .waitInput → t.input.head? = v.input.head?) :
    StepsAlike s u (step t) (step v) := by
  cases hr : t.run with
  | running =>
    have hr' : v.run = .running := h.view.run ▸ hr
    cases hd : decode (fetch t.mem t.pc.toNat) with
    | ok p =>
      rw [step_of_decoded hr hd, step_of_decoded hr' (h.view.mem ▸ h.view.pc ▸ hd)]
      exact h.exec p.1
    | error e =>
      rw [step_of_error hr hd, step_of_error hr' (h.view.mem ▸ h.view.pc ▸ hd)]
      exact h.decodeStop e
  | waitInput =>
    rw [step_waiting hr, step_waiting (h.view.run ▸ hr)]
    exact h.completeIn hr (hb hr)
  | halted => simp only [Machine.step, hr]; exact .fault
  | faulted => simp only [Machine.step, hr]; exact .fault

end MovesAlike

/-- Settles O52: a step keeps `MovesAlike`, which two states that agree as the statement says begin with. -/
theorem programsCannotSeeStatusOrPorts : Obligations.ProgramsCannotSeeStatusOrPorts := by
  intro s u t hview hwait hstep
  have hstart : MovesAlike s u s u := .start hview fun hr => (hwait hr).1
  obtain ⟨v, hv, halike⟩ := hstart.step (fun hr => (hwait hr).2) t hstep
  exact ⟨v, hv, halike.view, halike.latched, halike.sent⟩

end Sys2Proof.Machine
end

/-! ## The invariant (10_state.md R23, R28, R37)

One rule per operation of the model for `State.Inv`; the effects of instructions and steps are made of these. -/

section
namespace Sys2Proof.Machine

/-- No instruction has more than three operands (30_encoding.md R72). -/
theorem operands_length_le (i : Instr) : i.operands.length ≤ 3 := by
  simpa using (decode_valid (opcodeKinds_opcode i) []).arity

/-- An operand of a well-formed instruction stands for exactly one word. -/
theorem canonical_of_getElem? {i : Instr} {k : Nat} {q : OperandKind} {o : Operand} (hi : i.wellFormed = true)
    (h : i.operands[k]? = some (q, o)) : o.canonical = true :=
  List.all_eq_true.mp hi (q, o) (List.mem_of_getElem? h)

theorem valueWord_le (x : Value) : (valueWord x).toNat ≤ 32767 := by
  have := x.isLt
  rw [valueWord_toNat]
  omega

/-- A stop_index of 1 to 3 is not cut to 2 bits. -/
theorem stopIndex_toNat {k : Nat} (h : k ≤ 3) : (BitVec.ofNat 2 k).toNat = k := by
  rw [BitVec.toNat_ofNat]
  omega

theorem stopIndex_ne_zero {k : Nat} (h1 : 1 ≤ k) (h3 : k ≤ 3) : BitVec.ofNat 2 k ≠ 0 := by
  intro h
  have := congrArg BitVec.toNat h
  rw [stopIndex_toNat h3] at this
  exact absurd this (Nat.ne_of_gt h1)

namespace State

/-- The address after an instruction that ends inside memory does not wrap. -/
theorem after_toNat {s : State} {n : Nat} (h : s.pc.toNat + n ≤ 32768) : (s.after n).toNat = s.pc.toNat + n := by
  rw [after, BitVec.toNat_add, BitVec.toNat_ofNat]
  omega

theorem after_le {s : State} {n : Nat} (h : s.pc.toNat + n ≤ 32768) : (s.after n).toNat ≤ 32768 :=
  (after_toNat h).trans_le h

/-! ### When the stop record agrees with `run` -/

theorem stopAgrees_of_running {s : State} (hr : s.run = .running) : s.stopAgrees = (s.stop == StopRecord.zero) := by
  simp only [stopAgrees, hr]

theorem stopAgrees_of_waiting {s : State} (hr : s.run = .waitInput) : s.stopAgrees = (s.stop == StopRecord.zero) := by
  simp only [stopAgrees, hr]

/-- Every fault of an instruction in memory leaves one of the rows of R225. -/
theorem stopAgrees_raised {i : Instr} {s : State} {c : StopCode} {w : Word} {k : Nat} (hpc : s.pc.toNat ≤ 32767)
    (hi : i.wellFormed = true) (h : RaiseRow i s c w k) : (s.raised c w k).stopAgrees = true := by
  cases h with
  | @operand q o j hq ho hn =>
    obtain ⟨w, rfl⟩ := resolveValue_eq_none.mp hn
    have hw : 32776 ≤ w.toNat := of_decide_eq_true (canonical_of_getElem? hi ho)
    have hj := (List.getElem?_eq_some_iff.mp ho).1
    have hk := stopIndex_ne_zero (k := j + 1) (by omega) (by have := operands_length_le i; omega)
    simpa [stopAgrees, Operand.word, hpc, hw] using hk
  | @dest o ho hn =>
    have hc := canonical_of_getElem? hi ho
    cases o with
    | literal v => simp [stopAgrees, Operand.word, hpc, valueWord_le]
    | register r => cases hn
    | invalid w =>
      have hw : 32776 ≤ w.toNat := of_decide_eq_true hc
      simp [stopAgrees, Operand.word, hpc, hw]
  | divisionByZero heq hy => simp [stopAgrees, hpc]
  | underflow heq hs => simp [stopAgrees, hpc]
  | overflowPush heq hf => simp [stopAgrees, hpc]
  | overflowCall heq hf => simp [stopAgrees, hpc]

theorem stopAgrees_raised_invalidOpcode {s : State} {w0 : Word} (hpc : s.pc.toNat ≤ 32767) (hw : 22 ≤ w0.toNat) :
    (s.raised .invalidOpcode w0 0).stopAgrees = true := by
  simp [stopAgrees, hpc, hw]

theorem stopAgrees_raised_fetchOutOfRange {s : State} {w0 : Word} {k : Nat} (hw : w0.toNat ≤ 21) (h1 : 1 ≤ k)
    (h3 : k ≤ 3) (hpc : s.pc.toNat + k = 32768) : (s.raised .fetchOutOfRange w0 k).stopAgrees = true := by
  have hlt : s.pc.toNat ≤ 32767 := by omega
  have hk := stopIndex_ne_zero h1 h3
  have hn := stopIndex_toNat h3
  rw [← hn] at hpc
  simpa [stopAgrees, hlt, hw, hpc, -BitVec.toNat_ofNat] using hk

end State

namespace State.Inv
variable {s : State} (h : s.Inv)
include h

/-! ### Operations that leave the block running -/

theorem writeReg (r : RegIdx) (v : Nat) : (s.writeReg r v).Inv := { h with }

theorem sendByte (b : Byte) : (s.sendByte b).Inv := { h with }

theorem memWrite (a v : Value) : (s.memWrite a v).Inv :=
  { h with memory := Memory.write_wf h.memory a.isLt _ }

/-- The stack without its top. -/
theorem popped {below : List Word} {e : Word} (hs : s.stack = below ++ [e]) : State.Inv { s with stack := below } :=
  { h with
    entries := fun x hx => h.entries x (by simp [hs, hx])
    capacity := fun n hn => by
      obtain ⟨hpos, hle⟩ := h.capacity n hn
      rw [hs, List.length_append] at hle
      exact ⟨hpos, Nat.le_of_add_right_le hle⟩ }

theorem top_le {below : List Word} {e : Word} (hs : s.stack = below ++ [e]) : e.toNat ≤ 32768 :=
  h.entries e (by simp [hs])

/-- A push that finds room keeps the stack within its capacity (41_data_stack.md R130). -/
theorem pushEntry {v : Word} (hv : v.toNat ≤ 32768) (hroom : s.cfg.stackCapacity ≠ some s.stack.length) :
    (s.pushEntry v).Inv :=
  { h with
    entries := fun x hx => by
      rcases List.mem_append.mp hx with hx | hx
      · exact h.entries x hx
      · rwa [List.mem_singleton.mp hx]
    capacity := fun n hn => by
      obtain ⟨hpos, hle⟩ := h.capacity n hn
      have hne : s.stack.length ≠ n := fun e => hroom (e ▸ hn)
      rw [State.pushEntry_stack, List.length_append, List.length_singleton]
      omega }

theorem setPc (hr : s.run = .running) {w : Word} (hw : w.toNat ≤ 32768) : (s.setPc w).Inv :=
  { h with
    pc := hw
    stop := by simpa [stopAgrees_of_running, hr] using h.stop
    waiting := by simp [hr] }

theorem jump (hr : s.run = .running) (x : Value) : (s.setPc (valueWord x)).Inv :=
  h.setPc hr (Nat.le_succ_of_le (valueWord_le x))

theorem advance (hr : s.run = .running) {n : Nat} (hn : s.pc.toNat + n ≤ 32768) : (s.advance n).Inv :=
  h.setPc hr (after_le hn)

/-! ### IN's two moves -/

theorem startIn (hr : s.run = .running) (hpc : s.pc.toNat + 2 ≤ 32768) (d : RegIdx) : (s.startIn d).Inv :=
  { h with
    stop := by
      have hw : (s.startIn d).run = .waitInput := rfl
      rw [stopAgrees_of_waiting hw]
      simpa [stopAgrees_of_running, hr] using h.stop
    waiting := fun _ => Nat.le_sub_of_add_le hpc }

theorem finishIn (hr : s.run = .waitInput) (c : Byte) (rest : List Byte) : (s.finishIn c rest).Inv :=
  { h with
    pc := after_le (n := 2) (Nat.add_le_of_le_sub (by decide) (h.waiting hr))
    stop := by
      have hw : (s.finishIn c rest).run = .running := rfl
      rw [stopAgrees_of_running hw]
      simpa [stopAgrees_of_waiting, hr] using h.stop
    waiting := nofun }

/-! ### Stops -/

theorem raised {c : StopCode} {w : Word} {k : Nat} (hstop : (s.raised c w k).stopAgrees = true) :
    (s.raised c w k).Inv :=
  { h with stop := hstop, waiting := nofun }

theorem stopped {c : StopCode} {w p : Word} (hp : p.toNat ≤ 32768) (hstop : (s.stopped c w p).stopAgrees = true) :
    (s.stopped c w p).Inv :=
  { h with pc := hp, stop := hstop, waiting := nofun }

/-! ### Instructions and steps -/

/-- An instruction that lies in memory keeps the invariant, whatever it does. -/
theorem of_effect {i : Instr} {t : State} (hr : s.run = .running) (hi : i.wellFormed = true)
    (hpc : s.pc.toNat + i.length ≤ 32768) (he : Effect i s t) : t.Inv := by
  have hpos : 1 ≤ i.length := Nat.le_add_right 1 _
  have hpc1 : s.pc.toNat + 1 ≤ 32768 := by omega
  cases he with
  | raised hrow => exact h.raised (stopAgrees_raised (by omega) hi hrow)
  | halted heq => exact h.stopped (after_le hpc1) (by simp [stopAgrees, State.after])
  | retEmpty heq hs => exact h.stopped (after_le hpc1) (by simp [stopAgrees, State.after])
  | wrote hd => exact (h.writeReg _ _).advance hr hpc
  | popped heq hs => subst heq; exact ((h.popped hs).writeReg _ _).advance hr hpc
  | pushed heq hx hroom =>
    subst heq
    exact (h.pushEntry (Nat.le_succ_of_le (valueWord_le _)) hroom).advance hr hpc
  | jumped => exact h.jump hr _
  | advanced => exact h.advance hr hpc
  | called heq hx hroom =>
    subst heq
    exact (h.pushEntry (after_le hpc) hroom).jump hr _
  | returned heq hs => exact (h.popped hs).setPc hr (h.top_le hs)
  | stored heq hx hy => subst heq; exact (h.memWrite _ _).advance hr hpc
  | sent heq hx => subst heq; exact (h.sendByte _).advance hr hpc
  | waited heq => subst heq; exact h.startIn hr hpc _

/-- Every step keeps the invariant. -/
theorem of_step {t : State} (ht : step s = .next t) : t.Inv := by
  cases step_effect ht with
  | executed hr hd hi hpc hexec he => exact h.of_effect hr hi hpc he
  | endOfMemory hr hpc =>
    have hpc' : s.pc = 32768 := BitVec.eq_of_toNat_eq hpc
    exact h.stopped h.pc (by simp [stopAgrees, hpc'])
  | invalidOpcode hr hpc hw hge => exact h.raised (stopAgrees_raised_invalidOpcode (by omega) hge)
  | fetchPast hr hw hlt h1 h3 hpc => exact h.raised (stopAgrees_raised_fetchOutOfRange (by omega) h1 h3 hpc)
  | completed hr hin => exact h.finishIn hr _ _

end State.Inv

/-- Settles O53: every effect of a step is made of operations that keep the invariant. -/
theorem stepKeepsTheInvariant : Obligations.StepKeepsTheInvariant :=
  fun _ _ h ht => h.of_step ht

end Sys2Proof.Machine
end

/-! ## Stops and waits (10_state.md R34, R38) -/

section
namespace Sys2Proof.Machine

/-- A HALTED or FAULTED block takes no step (R38). -/
theorem step_stopped {s : State} (h : s.cleanEnd ∨ s.failedEnd) : step s = .fault .stopped := by
  rcases h with hr | hr
  · simp only [step, show s.run = .halted from hr]
  · simp only [step, show s.run = .faulted from hr]

/-- A waiting IN makes no move while no byte is offered (R34). -/
theorem step_stuck {s : State} (h : s.stuck) : step s = .fault .awaitingInput := by
  obtain ⟨hrun, hinput⟩ := h
  rw [step_waiting hrun, completeIn, hinput]

/-- Settles O7: `step` looks at `run` first. -/
theorem stoppedBlockTakesNoStep : Obligations.StoppedBlockTakesNoStep :=
  fun _ h => step_stopped h

/-- Settles O9: IN's second move needs a byte. -/
theorem waitingWithoutAByteMakesNoMove : Obligations.WaitingWithoutAByteMakesNoMove :=
  fun _ h => step_stuck h

/-- Settles O8, by induction over the states reached: a step from the stopped state itself would answer a state. -/
theorem stopsAreFinal : Obligations.StopsAreFinal := by
  intro s t hstop hreach
  refine reaches_induction (P := (· = s)) rfl (fun t u heq hstep => ?_) hreach
  subst heq
  rw [step_stopped hstop] at hstep
  cases hstep

end Sys2Proof.Machine
end

/-! ## Frames of the instructions (10_state.md R41)

Each is a split on what an instruction can do, `Effect`; the effects that write the element in question are named. -/

section
namespace Sys2Proof.Machine

/-- A register that is no destination operand reads as before. -/
theorem Effect.readReg_of_not_dest {i : Instr} {s t : State} (he : Effect i s t) {r : RegIdx}
    (hr : (OperandKind.dest, Operand.register r) ∉ i.operands) : t.readReg r = s.readReg r := by
  cases he with
  | @wrote d v hd =>
    have hne : r ≠ d := fun e => hr (e ▸ List.mem_of_getElem? hd)
    exact State.readReg_writeReg_other v s hne
  | @popped d below e heq hs =>
    have hne : r ≠ d := fun e => hr (by simp [heq, e, Instr.operands])
    exact State.readReg_writeReg_other e.toNat { s with stack := below } hne
  | _ => rfl

/-- A cell that no WMEM addresses reads as before. -/
theorem Effect.read_mem_of_not_addressed {i : Instr} {s t : State} (he : Effect i s t) {c : Nat}
    (hc : ∀ a b x, i = .wmem a b → resolveValue s a = some x → c ≠ x.toNat) : t.mem.read c = s.mem.read c := by
  cases he with
  | stored heq hx hy => exact Memory.read_write_other s.mem _ (hc _ _ _ heq hx)
  | _ => rfl

/-- What becomes of the stack: it stays, or PUSH or CALL adds a top, or POP or RET takes the top. -/
theorem Effect.stack_cases {i : Instr} {s t : State} (he : Effect i s t) :
    t.stack = s.stack ∨
    (∃ o e, (i = .push o ∨ i = .call o) ∧ t.stack = s.stack ++ [e]) ∨
    (∃ o e, (i = .pop o ∨ i = .ret) ∧ s.stack = t.stack ++ [e]) := by
  cases he with
  | @pushed a x heq hx hroom => exact .inr (.inl ⟨a, valueWord x, .inl heq, rfl⟩)
  | @called o x heq hx hroom => exact .inr (.inl ⟨o, s.after 2, .inr heq, rfl⟩)
  | @popped d below e heq hs => exact .inr (.inr ⟨.register d, e, .inl heq, hs⟩)
  | @returned below e heq hs => exact .inr (.inr ⟨.literal 0, e, .inr heq, hs⟩)
  | _ => exact .inl rfl

/-- No instruction takes input, writes the parameters or draws a free value. -/
theorem Effect.host_side {i : Instr} {s t : State} (he : Effect i s t) :
    t.input = s.input ∧ t.cfg = s.cfg ∧ t.freeCount = s.freeCount := by
  cases he <;> exact ⟨rfl, rfl, rfl⟩

/-- Only OUT sends, and one byte at a time. -/
theorem Effect.output_cases {i : Instr} {s t : State} (he : Effect i s t) :
    t.output = s.output ∨ ∃ a b, i = .out a ∧ t.output = s.output ++ [b] := by
  cases he with
  | @sent a x heq hx => exact .inr ⟨a, _, heq, rfl⟩
  | _ => exact .inl rfl

theorem RaiseRow.code_ne_none {i : Instr} {s : State} {c : StopCode} {w : Word} {k : Nat} (h : RaiseRow i s c w k) :
    c ≠ .none := by
  cases h <;> exact nofun

/-- An instruction goes on running, or is an IN that waits, or stops with its own record. -/
theorem Effect.run_cases {i : Instr} {s t : State} (he : Effect i s t) :
    t.run = s.run ∧ t.stop = s.stop ∧ t.inDest = s.inDest ∨
    t.run = .waitInput ∧ t.stop = s.stop ∧ (∃ r, i = .inp (.register r) ∧ t.inDest = r) ∨
    (t.run = .halted ∨ t.run = .faulted) ∧ t.stop.code ≠ .none ∧ t.stop.pc = s.pc ∧ t.inDest = s.inDest := by
  cases he with
  | waited heq => exact .inr (.inl ⟨rfl, rfl, _, heq, rfl⟩)
  | raised hrow => exact .inr (.inr ⟨.inr rfl, hrow.code_ne_none, rfl, rfl⟩)
  | halted heq => exact .inr (.inr ⟨.inl rfl, nofun, rfl, rfl⟩)
  | retEmpty heq hs => exact .inr (.inr ⟨.inl rfl, nofun, rfl, rfl⟩)
  | _ => exact .inl ⟨rfl, rfl, rfl⟩

/-- Settles O46: the effects that write a register write the destination operand's. -/
theorem onlyTheDestinationRegisterChanges : Obligations.OnlyTheDestinationRegisterChanges :=
  fun _ _ _ h _ hr => (exec_effect h).readReg_of_not_dest hr

/-- Settles O47. The canonical form is not needed: a write leaves the other cells in any memory. -/
theorem onlyWmemChangesMemory : Obligations.OnlyWmemChangesMemory :=
  fun _ _ _ _ h _ hc => (exec_effect h).read_mem_of_not_addressed hc

/-- Settles O48: the stack changes in the four effects of PUSH, CALL, POP and RET alone. -/
theorem onlyStackInstructionsTouchTheStack : Obligations.OnlyStackInstructionsTouchTheStack :=
  fun _ _ _ h hne => (exec_effect h).stack_cases.resolve_left hne

/-- Settles O50, from what each effect does to the ports and to the control state. -/
theorem runningInstructionsLeaveControlState : Obligations.RunningInstructionsLeaveControlState := by
  intro i s t h
  have he := exec_effect h
  obtain ⟨hin, hcfg, hfree⟩ := he.host_side
  exact ⟨hin, hcfg, hfree, he.output_cases, he.run_cases⟩

end Sys2Proof.Machine
end

/-! ## Reset and launch (10_state.md R36, R40, 70_reset_and_hazards.md R260, R262) -/

section
namespace Sys2Proof.Machine

theorem State.readReg_applyReset (m : Memory) (s : State) (r : RegIdx) : (s.applyReset m).readReg r = 0 := by
  simp [State.readReg, State.applyReset, State.reset]

/-- Reset release meets the invariant where the loaded memory is canonical and a finite capacity is positive. -/
theorem State.applyReset_inv {m : Memory} {s : State} (hm : m.wf)
    (hcap : ∀ n, s.cfg.stackCapacity = some n → 0 < n) : (s.applyReset m).Inv where
  memory := hm
  pc := Nat.zero_le _
  entries := nofun
  capacity n hn := ⟨hcap n hn, Nat.zero_le n⟩
  stop := rfl
  waiting := nofun

/-- A launch is reset release of a machine with the parameters and the input given. -/
theorem launch_of_loaded {image : List Byte} {m : Memory} (h : loadImage image = .ok m) (cfg : Config)
    (input : List Byte) :
    launch cfg image input = .ok (State.applyReset m { State.reset with input := input, cfg := cfg }) := by
  rw [launch, h]
  rfl

/-- Only an image that loads is launched. -/
theorem loaded_of_launch {cfg : Config} {image input : List Byte} {s : State} (h : launch cfg image input = .ok s) :
    ∃ m, loadImage image = .ok m := by
  cases hm : loadImage image with
  | ok m => exact ⟨m, rfl⟩
  | error e => rw [launch, hm] at h; cases h

/-- A loaded image is a memory in canonical form. -/
theorem loadImage_wf {image : List Byte} {m : Memory} (h : loadImage image = .ok m) : m.wf := by
  unfold loadImage at h
  split at h
  · cases h
  · split at h
    · exact Except.ok.inj h ▸ Memory.ofWords_wf _ (by omega)
    · cases h

/-- An even number of bytes, at most 65536, loads. -/
theorem loadImage_of_even {image : List Byte} (heven : image.length % 2 = 0) (hle : image.length ≤ 65536) :
    ∃ m, loadImage image = .ok m := by
  rcases imageWords_cases image with ⟨hodd, -⟩ | ⟨ws, hws, hlen, -⟩
  · omega
  · exact ⟨Memory.ofWords 0 ws, by simp only [loadImage, hws]; exact if_pos (by omega)⟩

/-- Settles O54: the state after reset and every launch are reset releases, with canonical memory. -/
theorem resetMeetsTheInvariant : Obligations.ResetMeetsTheInvariant := by
  refine ⟨?_, fun m s hm hcap => State.applyReset_inv hm hcap, fun cfg image input s hcap hlaunch => ?_⟩
  · exact State.applyReset_inv (m := []) (s := State.reset) Memory.wf_nil nofun
  · obtain ⟨m, hm⟩ := loaded_of_launch hlaunch
    rw [launch_of_loaded hm] at hlaunch
    exact Except.ok.inj hlaunch ▸ State.applyReset_inv (loadImage_wf hm) hcap

/-- Settles O56: reset release overwrites every element of the table. -/
theorem resetLeavesTheResetTable : Obligations.ResetLeavesTheResetTable :=
  fun m s => ⟨rfl, s.readReg_applyReset m, rfl, rfl, rfl, rfl, rfl⟩

/-- Settles O59: the launch is a reset release, so its state is the one of the reset table. -/
theorem goodImagesAreLaunchedFromTheResetTable : Obligations.GoodImagesAreLaunchedFromTheResetTable := by
  intro cfg image input heven hle
  obtain ⟨m, hm⟩ := loadImage_of_even heven hle
  obtain ⟨hpc, hregs, hstack, hrun, hstop, houtput, hmem⟩ :=
    resetLeavesTheResetTable m { State.reset with input := input, cfg := cfg }
  exact ⟨m, _, hm, launch_of_loaded hm cfg input, hmem, hpc, hregs, hstack, hrun, hstop, houtput, rfl, rfl⟩

end Sys2Proof.Machine
end

/-! ## Instructions in memory (30_encoding.md R70, R72, R75, 40_cycle.md R101, R103, R108)

From the words that stand at the pc to the step they make: an instruction's own words run it, an opcode word that is
none faults. -/

section
namespace Sys2Proof

/-- The words of a well-formed instruction decode to it, format by format, whatever follows them. -/
theorem decode_encode {i : Instr} (hi : i.wellFormed = true) (rest : List Word) :
    decode (encode i ++ rest) = .ok (i, rest) := by
  have hc : ∀ p ∈ i.operands, classify p.2.word = p.2 := fun p hp => classify_word (List.all_eq_true.mp hi p hp)
  cases i with
  | halt | ret | noop => rfl
  | push a | pop a | jmp a | call a | out a | inp a =>
    simpa [encode, decode, formatOne, Instr.opcode, Instr.operands] using hc
  | set a b | jt a b | jf a b | not a b | rmem a b | wmem a b =>
    simpa [encode, decode, formatTwo, Instr.opcode, Instr.operands] using hc
  | eq a b c | gt a b c | add a b c | mult a b c | mod a b c | and a b c | or a b c =>
    simpa [encode, decode, formatThree, Instr.opcode, Instr.operands] using hc

theorem encode_length (i : Instr) : (encode i).length = i.length := by
  simp [encode, Instr.length, Nat.add_comm]

theorem arity_opcode (i : Instr) : arity i.opcode = i.operands.length := by
  simp [arity, opcodeKinds_opcode]

namespace Machine

/-- An instruction whose words stand inside memory is fetched whole. -/
theorem fetch_eq_encode {m : Memory} {ia : Nat} {i : Instr} (hin : ia + i.length ≤ 32768)
    (hm : ∀ k (h : k < (encode i).length), m.read (ia + k) = (encode i)[k]) : fetch m ia = encode i := by
  have hop : m.read ia = i.opcode := hm 0 (by simp [encode])
  have hlen : 1 + arity (m.read ia) = (encode i).length := by rw [hop, arity_opcode, encode_length, Instr.length]
  rw [fetch, hlen, wordsFrom_inside m (by rwa [encode_length])]
  refine List.ext_getElem (by simp) fun k _ hk => ?_
  rw [List.getElem_map, List.getElem_range, hm k hk]

/-- A running block runs the instruction whose words stand at its pc (40_cycle.md R108). -/
theorem step_of_encoded {s : State} {i : Instr} (hr : s.run = .running) (hi : i.wellFormed = true)
    (hin : s.pc.toNat + i.length ≤ 32768)
    (hm : ∀ k (h : k < (encode i).length), s.mem.read (s.pc.toNat + k) = (encode i)[k]) : step s = exec i s :=
  step_of_decoded hr (rest := []) (by rw [fetch_eq_encode hin hm]; simpa using decode_encode hi [])

/-- A running block faults on an opcode word above 21 (40_cycle.md R103). -/
theorem step_of_invalidOpcode {s : State} (hr : s.run = .running) (hpc : s.pc.toNat < 32768)
    (hw : 21 < (s.mem.read s.pc.toNat).toNat) :
    step s = .next (s.raised .invalidOpcode (s.mem.read s.pc.toNat) 0) := by
  have hnone := (opcodeKinds_eq_none_iff _).mpr hw
  have herror := (decode_invalid hnone (wordsFrom s.mem (s.pc.toNat + 1) (arity (s.mem.read s.pc.toNat)))).2
  rw [← fetch_cons _ hpc] at herror
  exact step_of_error hr herror

end Machine
end Sys2Proof
end

/-! ## Memory (20_memory.md R51 to R64) -/

section
namespace Sys2Proof.Machine

/-- Settles O45: the written cell and the others, by the two laws of a write. -/
theorem cellReadsAsLastWritten : Obligations.CellReadsAsLastWritten := by
  intro m a c v hm
  split
  · next h => rw [h, Memory.read_write_same hm]
  · next h => exact Memory.read_write_other m v h

/-- An instruction leaves a cell as it was, or WMEM stores a value of 15 bits there (R54). -/
theorem Effect.read_mem_cases {i : Instr} {s t : State} (he : Effect i s t) (hm : s.mem.wf) (c : Nat) :
    t.mem.read c = s.mem.read c ∨ ∃ y : Value, t.mem.read c = valueWord y := by
  cases he with
  | @stored a b x y heq hx hy =>
    by_cases hc : c = x.toNat
    · exact .inr ⟨y, hc ▸ Memory.read_write_same hm _ _⟩
    · exact .inl (Memory.read_write_other s.mem _ hc)
  | _ => exact .inl rfl

/-- Settles O44: only an instruction writes memory, and what it stores is below 32768. -/
theorem highCellsComeOnlyFromTheImage : Obligations.HighCellsComeOnlyFromTheImage := by
  intro s t c hm hstep hhigh
  cases step_effect hstep with
  | executed hr hd hi hpc hexec he =>
    refine (he.read_mem_cases hm c).resolve_right fun ⟨y, hy⟩ => ?_
    have hlow := valueWord_le y
    rw [hy] at hhigh
    omega
  | _ => rfl

/-- Settles O11: the zero word is the whole encoding of HALT. -/
theorem zeroWordHalts : Obligations.ZeroWordHalts := by
  intro s hr hpc hzero
  refine step_of_encoded (i := .halt) hr rfl (Nat.succ_le_succ hpc) fun k hk => ?_
  obtain rfl : k = 0 := Nat.lt_one_iff.mp hk
  exact hzero

theorem exec_wmem {s : State} {a b : Operand} {x y : Value} (hx : resolveValue s a = some x)
    (hy : resolveValue s b = some y) : exec (.wmem a b) s = .next ((s.memWrite x y).advance 3) := by
  rw [exec, execWmem, withValue_some hx, withValue_some hy]

/-- Settles O43: the stored word is what the next step reads at its pc, so that step runs the instruction whose words
stand there, or faults. -/
theorem wmemIsSeenByTheNextFetch : Obligations.WmemIsSeenByTheNextFetch := by
  intro s a b x y after hm hr hd hx hy hxpc
  have hx_lt : x.toNat < 32768 := x.isLt
  let t := (s.memWrite x y).advance 3
  have hrun : t.run = .running := hr
  have hpc : t.pc.toNat = x.toNat := (State.after_toNat (s := s) (n := 3) (by omega)).trans hxpc.symm
  have hcell : t.mem.read t.pc.toNat = BitVec.ofNat 16 y.toNat := by
    rw [hpc, ← valueWord_eq_ofNat]
    exact Memory.read_write_same hm _ _
  have hcellNat : (t.mem.read t.pc.toNat).toNat = y.toNat := by
    rw [hcell, ← valueWord_eq_ofNat, valueWord_toNat]
  have hstep : step s = .next t := (step_of_decoded hr hd).trans (exec_wmem hx hy)
  refine ⟨t, hstep, rfl, ?_, fun i hi hop hin hwords => ?_, fun hhigh => ?_⟩
  · rw [fetch_cons _ (hpc ▸ hx_lt), hcell, List.head?_cons]
  · refine step_of_encoded hrun hi (hpc ▸ hin) fun k hk => ?_
    cases k with
    | zero => exact BitVec.eq_of_toNat_eq (hcellNat.trans hop.symm)
    | succ k =>
      rw [← hwords (k + 1) hk (Nat.le_add_left 1 k), hpc]
      exact Memory.read_write_other s.mem _ (by omega)
  · rw [step_of_invalidOpcode hrun (hpc ▸ hx_lt) (hcellNat ▸ hhigh), hcell]
    rfl

end Sys2Proof.Machine
end

/-! ## Decoding and encoding (30_encoding.md R70 to R85)

Each direction of the round trip is read off the table of operand kinds. -/

section
namespace Sys2Proof

/-- The words of classified operands are the words they were classified from. -/
theorem words_zip_classify (ks : List OperandKind) (ws : List Word) :
    (ks.zip (ws.map classify)).map (fun p => p.2.word) = ws.take ks.length := by
  induction ks generalizing ws with
  | nil => simp
  | cons k ks ih =>
    cases ws with
    | nil => simp
    | cons w ws => simp [ih, word_classify]

/-- Words that decode to an instruction begin with the instruction's own encoding. -/
theorem decode_eq_ok {ws rest : List Word} {i : Instr} (h : decode ws = .ok (i, rest)) :
    i.wellFormed = true ∧ ws = encode i ++ rest := by
  cases ws with
  | nil => cases h
  | cons w0 ws =>
    cases hk : opcodeKinds w0.toNat with
    | none =>
      rw [(decode_invalid hk ws).2] at h
      cases h
    | some ks =>
      have hv := decode_valid hk ws
      rcases Nat.lt_or_ge ws.length ks.length with hshort | hlong
      · rw [hv.short hshort] at h
        cases h
      · obtain ⟨j, hd, hop, hops⟩ := hv.long hlong
        rw [hd, Except.ok.injEq, Prod.mk.injEq] at h
        obtain ⟨rfl, rfl⟩ := h
        refine ⟨Machine.wellFormed_of_operands hops, ?_⟩
        rw [encode, hops, words_zip_classify, hop, List.cons_append, List.take_append_drop]

/-- An opcode number of the table is never rejected as an opcode. -/
theorem decode_ne_invalidOpcode {w0 : Word} {ks : List OperandKind} (hk : opcodeKinds w0.toNat = some ks)
    (ws : List Word) : decode (w0 :: ws) ≠ .error (.invalidOpcode w0) := by
  have hv := decode_valid hk ws
  rcases Nat.lt_or_ge ws.length ks.length with hshort | hlong
  · rw [hv.short hshort]
    exact nofun
  · obtain ⟨i, hd, -, -⟩ := hv.long hlong
    rw [hd]
    exact nofun

/-- Settles O1: format by format, each operand word is classified back to its operand. -/
theorem decodeEncodeRoundTrip : Obligations.DecodeEncodeRoundTrip :=
  fun _ rest hi => decode_encode hi rest

/-- Settles O2: the decoded operands are the classes of the words that follow the opcode word, and these have the
words they came from. -/
theorem encodeDecodeRoundTrip : Obligations.EncodeDecodeRoundTrip := by
  intro ws i rest h
  obtain ⟨hwf, hws⟩ := decode_eq_ok h
  exact ⟨hwf, hws, encode_length i, by rw [arity_opcode, Instr.length]⟩

/-- Settles O4: the table of operand kinds ends at 21, and decoding follows it. -/
theorem illegalOpcodesAreExactlyThoseAbove21 : Obligations.IllegalOpcodesAreExactlyThoseAbove21 := by
  intro w0 ws
  rw [← opcodeKinds_eq_none_iff]
  cases hk : opcodeKinds w0.toNat with
  | none => exact iff_of_true (decode_invalid hk ws).2 rfl
  | some ks => exact iff_of_false (decode_ne_invalidOpcode hk ws) nofun

/-- Settles O3: the words of each example are the encoding of its instruction. -/
theorem specExampleWordsDecode : Obligations.SpecExampleWordsDecode :=
  ⟨decode_encode (i := .halt) rfl [],
   decode_encode (i := .set (.register 0) (.literal 72)) rfl [],
   decode_encode (i := .add (.register 0) (.register 1) (.literal 4)) rfl [],
   decode_encode (i := .jt (.register 7) (.literal 32767)) rfl [],
   decode_encode (i := .out (.register 0)) rfl [],
   decode_encode (i := .noop) rfl []⟩

end Sys2Proof
end

/-! ## Instructions with legal operands (30_encoding.md R82, 40_cycle.md R109)

A legal operand resolves, so what is left of an instruction's stops is its own cause, `OwnStop`. -/

section
namespace Sys2Proof.Machine

/-! ### Legal operands resolve -/

theorem legalFor_of_getElem? {i : Instr} {k : Nat} {q : OperandKind} {o : Operand} (hi : i.legal = true)
    (h : i.operands[k]? = some (q, o)) : o.legalFor q = true :=
  List.all_eq_true.mp hi (q, o) (List.mem_of_getElem? h)

theorem eq_register_of_legalFor_dest {o : Operand} (h : o.legalFor .dest = true) : ∃ d, o = .register d := by
  cases o with
  | register d => exact ⟨d, rfl⟩
  | literal v => cases h
  | invalid w => cases h

/-- No position accepts an invalid word, so a legal operand has a value. -/
theorem resolveValue_of_legalFor {q : OperandKind} {o : Operand} (h : o.legalFor q = true) (s : State) :
    ∃ x, resolveValue s o = some x := by
  cases o with
  | literal v => exact ⟨v, rfl⟩
  | register r => exact ⟨s.readReg r, rfl⟩
  | invalid w => cases q <;> cases h

/-! ### The own causes stop -/

theorem exec_ret_of_empty {s : State} (hs : s.stack = []) :
    exec .ret s = .next (s.stopped .retEmpty 18 (s.after 1)) := by
  rw [exec, execRet, State.popEntry_of_empty hs]
  rfl

theorem exec_mod_of_zero {s : State} {d : RegIdx} {a b : Operand} {x : Value} (hx : resolveValue s a = some x)
    (hb : resolveValue s b = some 0) :
    exec (.mod (.register d) a b) s = .next (s.raised .divisionByZero 11 0) := by
  rw [exec, execMod, aluBinary, withDest_register, withValue_some hx, withValue_some hb, if_pos rfl]
  rfl

theorem exec_pop_of_empty {s : State} {d : RegIdx} (hs : s.stack = []) :
    exec (.pop (.register d)) s = .next (s.raised .stackUnderflow 3 0) := by
  rw [exec, execPop, withDest_register, State.popEntry_of_empty hs]
  rfl

theorem exec_push_of_full {s : State} {a : Operand} {x : Value} (hx : resolveValue s a = some x)
    (hfull : s.cfg.stackCapacity = some s.stack.length) :
    exec (.push a) s = .next (s.raised .stackOverflow 2 0) := by
  rw [exec, execPush, withValue_some hx, withPush_full hfull]

theorem exec_call_of_full {s : State} {o : Operand} {x : Value} (hx : resolveAddress s o = some x)
    (hfull : s.cfg.stackCapacity = some s.stack.length) :
    exec (.call o) s = .next (s.raised .stackOverflow 17 0) := by
  rw [exec, execCall, withAddress_some hx, withPush_full hfull]

/-- An instruction with legal operands and a cause of its own stops with that cause's record, at its address. -/
theorem exec_of_ownStop {i : Instr} {s : State} {c : StopCode} {r : Run} (hi : i.legal = true)
    (h : OwnStop s i c r) : ∃ t, exec i s = .next t ∧ t.run = r ∧ t.stop.code = c ∧ t.stop.pc = s.pc := by
  cases h with
  | halt => exact ⟨_, rfl, rfl, rfl, rfl⟩
  | retEmpty hs => exact ⟨_, exec_ret_of_empty hs, rfl, rfl, rfl⟩
  | divisionByZero hb =>
    obtain ⟨d, rfl⟩ := eq_register_of_legalFor_dest (legalFor_of_getElem? (k := 0) hi rfl)
    obtain ⟨x, hx⟩ := resolveValue_of_legalFor (legalFor_of_getElem? (k := 1) hi rfl) s
    exact ⟨_, exec_mod_of_zero hx hb, rfl, rfl, rfl⟩
  | stackUnderflow hs =>
    obtain ⟨d, rfl⟩ := eq_register_of_legalFor_dest (legalFor_of_getElem? (k := 0) hi rfl)
    exact ⟨_, exec_pop_of_empty hs, rfl, rfl, rfl⟩
  | pushOverflow hfull =>
    obtain ⟨x, hx⟩ := resolveValue_of_legalFor (legalFor_of_getElem? (k := 0) hi rfl) s
    exact ⟨_, exec_push_of_full hx hfull, rfl, rfl, rfl⟩
  | callOverflow hfull =>
    obtain ⟨x, hx⟩ := resolveValue_of_legalFor (legalFor_of_getElem? (k := 0) hi rfl) s
    rw [← resolveAddress_eq] at hx
    exact ⟨_, exec_call_of_full hx hfull, rfl, rfl, rfl⟩

/-! ### Nothing else does -/

/-- With legal operands the only faults left are an instruction's own. -/
theorem RaiseRow.ownStop {i : Instr} {s : State} {c : StopCode} {w : Word} {k : Nat} (hi : i.legal = true)
    (h : RaiseRow i s c w k) : OwnStop s i c .faulted := by
  cases h with
  | operand hq ho hn =>
    obtain ⟨x, hx⟩ := resolveValue_of_legalFor (legalFor_of_getElem? hi ho) s
    rw [hx] at hn
    cases hn
  | dest ho hn =>
    obtain ⟨d, rfl⟩ := eq_register_of_legalFor_dest (legalFor_of_getElem? hi ho)
    cases hn
  | divisionByZero heq hb => exact heq ▸ .divisionByZero hb
  | underflow heq hs => exact heq ▸ .stackUnderflow hs
  | overflowPush heq hfull => exact heq ▸ .pushOverflow hfull
  | overflowCall heq hfull => exact heq ▸ .callOverflow hfull

/-- With legal operands and no cause of its own, an instruction leaves the stop record, and `run` too, but for IN. -/
theorem Effect.stop_run_of_no_ownStop {i : Instr} {s t : State} (he : Effect i s t) (hi : i.legal = true)
    (hown : ∀ c r, ¬ OwnStop s i c r) : t.stop = s.stop ∧ ((∃ o, i = .inp o) ∨ t.run = s.run) := by
  cases he with
  | raised hrow => exact absurd (hrow.ownStop hi) (hown _ _)
  | halted heq =>
    subst heq
    exact absurd .halt (hown _ _)
  | retEmpty heq hs =>
    subst heq
    exact absurd (.retEmpty hs) (hown _ _)
  | waited heq => exact ⟨rfl, .inl ⟨_, heq⟩⟩
  | _ => exact ⟨rfl, .inr rfl⟩

/-- An IN with a legal destination waits. -/
theorem run_of_exec_inp {o : Operand} {s t : State} (hi : (Instr.inp o).legal = true)
    (h : exec (.inp o) s = .next t) : t.run = .waitInput := by
  obtain ⟨d, rfl⟩ := eq_register_of_legalFor_dest (legalFor_of_getElem? (k := 0) hi rfl)
  exact Host.Outcome.next.inj h ▸ rfl

/-- Settles O15: an own cause stops the instruction, and no other effect of an instruction with legal operands
touches the stop record. -/
theorem legalOperandsRaiseNoOperandFault : Obligations.LegalOperandsRaiseNoOperandFault := by
  intro i s t hi hexec
  by_cases hown : ∃ c r, OwnStop s i c r
  · obtain ⟨c, r, hstop⟩ := hown
    obtain ⟨u, hu, hrun, hcode, hpc⟩ := exec_of_ownStop hi hstop
    obtain rfl : t = u := Host.Outcome.next.inj (hexec.symm.trans hu)
    exact .inl ⟨c, r, hstop, hrun, hcode, hpc⟩
  · have hnone : ∀ c r, ¬ OwnStop s i c r := fun c r h => hown ⟨c, r, h⟩
    obtain ⟨hrecord, hrun⟩ := (exec_effect hexec).stop_run_of_no_ownStop hi hnone
    refine .inr ⟨hnone, hrecord, ?_⟩
    by_cases hin : ∃ o, i = .inp o
    · obtain ⟨o, rfl⟩ := hin
      exact .inl ⟨⟨o, rfl⟩, run_of_exec_inp hi hexec⟩
    · exact .inr ⟨fun o heq => hin ⟨o, heq⟩, hrun.resolve_left hin⟩

end Sys2Proof.Machine
end

/-! ## One step (40_cycle.md R100 to R109)

A running block stops in fetch or decode, or runs an instruction. Every instruction resolves its operands in order
before any effect, `FaultsInOrder`, and a fault is nothing but `State.raised` of the state before the step. -/

section
namespace Sys2Proof.Machine

/-! ### Operands are resolved in order (R104) -/

/-- A target position accepts what a value position accepts (30_encoding.md R77). -/
theorem legalFor_target (o : Operand) : o.legalFor .target = o.legalFor .value := by
  cases o <;> rfl

/-- Outcome `out` in state `s` resolves `ops`, the operands from position `n` on, in order: the first that its position
does not accept has raised its fault, with its own word and position. -/
def FaultsInOrder (s : State) (out : StepOutcome) : Nat → List (OperandKind × Operand) → Prop
  | _, [] => True
  | n, (q, o) :: ops =>
    (o.legalFor q = false → out = .next (s.raised (operandFault q) o.word n)) ∧
    (o.legalFor q = true → FaultsInOrder s out (n + 1) ops)

namespace FaultsInOrder
variable {s : State} {n : Nat} {o : Operand} {ops : List (OperandKind × Operand)}

theorem withDest {cont : RegIdx → StepOutcome} (h : ∀ d, FaultsInOrder s (cont d) (n + 1) ops) :
    FaultsInOrder s (withDest n o s cont) n ((.dest, o) :: ops) := by
  cases o with
  | register r => exact ⟨nofun, fun _ => h r⟩
  | literal v => exact ⟨fun _ => rfl, nofun⟩
  | invalid w => exact ⟨fun _ => rfl, nofun⟩

theorem withValue {cont : Value → StepOutcome} (h : ∀ x, FaultsInOrder s (cont x) (n + 1) ops) :
    FaultsInOrder s (withValue n o s cont) n ((.value, o) :: ops) := by
  cases o with
  | literal v => exact ⟨nofun, fun _ => h v⟩
  | register r => exact ⟨nofun, fun _ => h (s.readReg r)⟩
  | invalid w => exact ⟨fun _ => rfl, nofun⟩

theorem withAddress {cont : Value → StepOutcome} (h : ∀ x, FaultsInOrder s (cont x) (n + 1) ops) :
    FaultsInOrder s (withAddress n o s cont) n ((.target, o) :: ops) := by
  rw [withAddress_eq_withValue, FaultsInOrder, legalFor_target]
  exact withValue h

theorem aluBinary {r a b : Operand} {act : RegIdx → Value → Value → StepOutcome} :
    FaultsInOrder s (aluBinary r a b s act) 1 [(.dest, r), (.value, a), (.value, b)] :=
  withDest fun _ => withValue fun _ => withValue fun _ => trivial

/-- Every instruction resolves its operands in order before it does anything else. -/
theorem exec (i : Instr) (s : State) : FaultsInOrder s (exec i s) 1 i.operands := by
  cases i with
  | halt | ret | noop => trivial
  | pop r | inp r => exact withDest fun _ => trivial
  | push a | out a => exact withValue fun _ => trivial
  | jmp t | call t => exact withAddress fun _ => trivial
  | set r a | not r a | rmem r a => exact withDest fun _ => withValue fun _ => trivial
  | jt a t | jf a t => exact withValue fun _ => withAddress fun _ => trivial
  | wmem a b => exact withValue fun _ => withValue fun _ => trivial
  | eq r a b | gt r a b | add r a b | mult r a b | mod r a b | and r a b | or r a b => exact aluBinary

/-- The first operand of the list that is not accepted has raised its fault. -/
theorem eq_raised {out : StepOutcome} (h : FaultsInOrder s out n ops) {k : Nat} {q : OperandKind}
    (hk : ops[k]? = some (q, o)) (hbad : o.legalFor q = false)
    (hfirst : ∀ j p, j < k → ops[j]? = some p → p.2.legalFor p.1 = true) :
    out = .next (s.raised (operandFault q) o.word (n + k)) := by
  induction ops generalizing n k with
  | nil => cases hk
  | cons p ops ih =>
    obtain ⟨hhead, htail⟩ := h
    cases k with
    | zero =>
      obtain rfl : p = (q, o) := Option.some.inj hk
      exact hhead hbad
    | succ k =>
      have hlegal := hfirst 0 p (Nat.zero_lt_succ k) rfl
      rw [ih (htail hlegal) hk fun j p hj hp => hfirst (j + 1) p (Nat.succ_lt_succ hj) hp]
      simp only [Nat.add_assoc, Nat.add_comm 1 k]

end FaultsInOrder

/-- Settles O16: operands are resolved in order, before any effect. -/
theorem firstFailingOperandFaults : Obligations.FirstFailingOperandFaults := by
  intro i s k q o hk hbad hfirst
  have h := (FaultsInOrder.exec i s).eq_raised hk hbad hfirst
  rwa [Nat.add_comm 1 k] at h

/-! ### Operand words (30_encoding.md R82) -/

/-- The word ranges of R82 say which classes of words a position accepts, and its fault. -/
theorem badOperand_eq (q : OperandKind) (w : Word) :
    badOperand q w = if (classify w).legalFor q then none else some (operandFault q) := by
  rcases Nat.lt_or_ge w.toNat 32768 with hlow | hhigh
  · rw [classify_low (Nat.le_of_lt_succ hlow)]
    cases q <;> simp [badOperand, Operand.legalFor, operandFault] <;> omega
  · rcases Nat.lt_or_ge w.toNat 32776 with hreg | hinv
    · rw [classify_register (r := ⟨w.toNat - 32768, by omega⟩) (by simp only; omega)]
      cases q <;> simp [badOperand, Operand.legalFor] <;> omega
    · rw [classify_high hinv]
      cases q <;> simp [badOperand, Operand.legalFor, operandFault] <;> omega

/-- The first bad operand word, by the ranges of R82, has raised its fault. -/
theorem FaultsInOrder.eq_raised_of_firstBadOperand {s : State} {out : StepOutcome} {n k : Nat} {c : StopCode}
    {w : Word} {ps : List (OperandKind × Word)} (h : FaultsInOrder s out n (ps.map (Prod.map id classify)))
    (hbad : firstBadOperand n ps = some (c, w, k)) : out = .next (s.raised c w k) := by
  induction ps generalizing n with
  | nil => cases hbad
  | cons p ps ih =>
    obtain ⟨q, v⟩ := p
    obtain ⟨hhead, htail⟩ := h
    rw [firstBadOperand, badOperand_eq] at hbad
    cases hlegal : (classify v).legalFor q with
    | true =>
      rw [hlegal] at hbad
      exact ih (htail hlegal) hbad
    | false =>
      rw [hlegal] at hbad
      obtain ⟨rfl, rfl, rfl⟩ : operandFault q = c ∧ v = w ∧ n = k := by simpa using hbad
      rw [hhead hlegal]
      simp only [id_eq, word_classify]

/-! ### What is fetched decodes (R101, R103) -/

/-- The words of an instruction that ends inside memory decode to it, each operand word classified. -/
theorem decode_fetch_inside {m : Memory} {ia : Nat} {ks : List OperandKind}
    (hk : opcodeKinds (m.read ia).toNat = some ks) (hin : ia + ks.length ≤ 32767) :
    ∃ i, decode (fetch m ia) = .ok (i, []) ∧
      i.operands = (ks.zip ((List.range ks.length).map fun j => m.read (ia + 1 + j))).map (Prod.map id classify) := by
  have harity : arity (m.read ia) = ks.length := by simp [arity, hk]
  rw [fetch_cons m (by omega), harity, wordsFrom_inside m (by omega)]
  obtain ⟨i, hd, -, hops⟩ :=
    (decode_valid hk ((List.range ks.length).map fun j => m.read (ia + 1 + j))).long (by simp)
  exact ⟨i, by rw [hd, List.drop_of_length_le (by simp)], by rw [hops, List.zip_map_right]⟩

theorem wordsFrom_length (m : Memory) (a n : Nat) : (wordsFrom m a n).length = min n (32768 - a) := by
  induction n generalizing a with
  | zero => simp [wordsFrom]
  | succ n ih =>
    unfold wordsFrom
    split
    · rw [List.length_cons, ih]
      omega
    · rw [List.length_nil]
      omega

/-- An instruction whose operand word `k` would lie at 32768 decodes to the error that names `k`. -/
theorem decode_fetch_past {m : Memory} {ia k : Nat} {ks : List OperandKind}
    (hk : opcodeKinds (m.read ia).toNat = some ks) (hpos : 1 ≤ k) (hle : k ≤ ks.length) (hpast : ia + k = 32768) :
    decode (fetch m ia) = .error (.missingOperand (m.read ia) k) := by
  have harity : arity (m.read ia) = ks.length := by simp [arity, hk]
  have hlen : (wordsFrom m (ia + 1) ks.length).length + 1 = k := by
    rw [wordsFrom_length]
    omega
  rw [fetch_cons m (by omega), harity, (decode_valid hk _).short (by omega), hlen]

/-! ### The stops of a step -/

/-- Settles O14: the operands of the decoded instruction are the classes of the words in memory. -/
theorem firstBadOperandFaults : Obligations.FirstBadOperandFaults := by
  intro s kinds c w k hr hk hin hbad
  obtain ⟨i, hd, hops⟩ := decode_fetch_inside hk hin
  have horder : FaultsInOrder s (exec i s) 1 i.operands := .exec i s
  rw [hops] at horder
  rw [step_of_decoded hr hd]
  exact horder.eq_raised_of_firstBadOperand hbad

/-- Settles O5: the words at the pc are fetched whole and decode to the instruction. -/
theorem stepRunsInstructionAtPc : Obligations.StepRunsInstructionAtPc :=
  fun _ _ hr hi hin hm => step_of_encoded hr hi hin hm

/-- Settles O10: nothing is fetched at 32768. -/
theorem endOfMemoryStopsCleanly : Obligations.EndOfMemoryStopsCleanly := by
  intro s hr hpc
  have hpc' : s.pc = 32768 := BitVec.eq_of_toNat_eq hpc
  rw [step_outside hr hpc.ge, decodeStop, if_pos hpc, stopClean, State.stopped, hpc']

/-- Settles O12: the table of operand kinds ends at 21. -/
theorem invalidOpcodeFaults : Obligations.InvalidOpcodeFaults :=
  fun _ hr hpc hw => step_of_invalidOpcode hr (Nat.lt_succ_of_le hpc) hw

/-- Settles O13: the fetch ends at the last cell, so decoding misses operand word `k`. -/
theorem operandFetchPastTheEndFaults : Obligations.OperandFetchPastTheEndFaults :=
  fun _ _ _ hr hk hpos hle hpast => step_of_error hr (decode_fetch_past hk hpos hle hpast)

/-! ### Enabled moves (R100) -/

/-- A running block moves: it stops in fetch or decode, or runs an instruction. -/
theorem step_isNext_of_running {s : State} (hr : s.run = .running) (hpc : s.pc.toNat ≤ 32768) :
    IsNext (step s) := by
  rcases Nat.lt_or_eq_of_le hpc with hin | hend
  · rcases decode_fetch_cases s.mem hin with ⟨-, hd⟩ | ⟨ks, k, -, -, -, -, hd⟩ | ⟨ks, i, -, -, hd, -⟩
    · exact ⟨_, step_of_error hr hd⟩
    · exact ⟨_, step_of_error hr hd⟩
    · rw [step_of_decoded hr hd]
      exact exec_next i s
  · exact ⟨_, endOfMemoryStopsCleanly s hr hend⟩

theorem step_isNext_of_byte {s : State} (hr : s.run = .waitInput) (hin : s.input ≠ []) : IsNext (step s) := by
  obtain ⟨c, rest, hcons⟩ := List.exists_cons_of_ne_nil hin
  exact ⟨s.finishIn c rest, by rw [step_waiting hr, completeIn, hcons]⟩

/-- Only a running block and a waiting one that is offered a byte move. -/
theorem StepEffect.moveEnabled {s t : State} (h : StepEffect s t) : s.moveEnabled := by
  cases h with
  | executed hr => exact .inl hr
  | endOfMemory hr => exact .inl hr
  | invalidOpcode hr => exact .inl hr
  | fetchPast hr => exact .inl hr
  | completed hr hin => exact .inr ⟨hr, by simp [hin]⟩

/-- Settles O6: each enabled move answers a state, and every effect of a step is of an enabled move. -/
theorem stepAnswersExactlyWhenAMoveIsEnabled : Obligations.StepAnswersExactlyWhenAMoveIsEnabled := by
  intro s hpc
  constructor
  · rintro ⟨t, h⟩
    exact (step_effect h).moveEnabled
  · rintro (hr | ⟨hr, hin⟩)
    · exact step_isNext_of_running hr hpc
    · exact step_isNext_of_byte hr hin

/-! ### Faults are precise (R107) -/

/-- An instruction that faults has done nothing but raise. -/
theorem Effect.eq_raised_of_faulted {i : Instr} {s t : State} (he : Effect i s t) (hr : s.run = .running)
    (hf : t.run = .faulted) : ∃ c w k, t = s.raised c w k := by
  cases he with
  | raised hrow => exact ⟨_, _, _, rfl⟩
  | halted | retEmpty | waited => cases hf
  | _ => exact absurd (hr.symm.trans hf) nofun

/-- A step that faults has done nothing but raise. -/
theorem StepEffect.eq_raised_of_faulted {s t : State} (h : StepEffect s t) (hf : t.run = .faulted) :
    ∃ c w k, t = s.raised c w k := by
  cases h with
  | executed hr hd hi hpc hexec he => exact he.eq_raised_of_faulted hr hf
  | invalidOpcode | fetchPast => exact ⟨_, _, _, rfl⟩
  | endOfMemory | completed => cases hf

/-- Settles O51: raising changes `run` and the stop record alone. -/
theorem faultsLeaveNoPartialEffect : Obligations.FaultsLeaveNoPartialEffect := by
  intro s t hstep hf
  obtain ⟨c, w, k, rfl⟩ := (step_effect hstep).eq_raised_of_faulted hf
  exact ⟨rfl, rfl⟩

end Sys2Proof.Machine
end

/-! ## Data movement and the stack (41_data_stack.md)

One equation for what SET, PUSH and POP do when nothing faults; the faults are `exec_push_of_full`, `exec_pop_of_empty`
and, for every instruction, `firstFailingOperandFaults`. -/

section
namespace Sys2Proof.Machine

/-! ### What they do -/

theorem exec_set_of_value {s : State} {r : RegIdx} {a : Operand} {x : Value} (hx : resolveValue s a = some x) :
    exec (.set (.register r) a) s = .next ((s.writeReg r x.toNat).advance 3) := by
  rw [exec, execSet, withDest_register, withValue_some hx]

theorem exec_push_of_room {s : State} {a : Operand} {x : Value} (hx : resolveValue s a = some x)
    (hroom : s.cfg.stackCapacity ≠ some s.stack.length) :
    exec (.push a) s = .next ((s.pushEntry (valueWord x)).advance 2) := by
  rw [exec, execPush, withValue_some hx, withPush_room hroom]

theorem exec_pop_of_top {s : State} {r : RegIdx} {below : List Word} {e : Word} (hs : s.stack = below ++ [e]) :
    exec (.pop (.register r)) s = .next ((State.writeReg r e.toNat { s with stack := below }).advance 2) := by
  rw [exec, execPop, withDest_register, State.popEntry_of_top hs]

/-- A register write stores its number mod 32768 (10_state.md R25). -/
theorem State.readReg_writeReg_toNat (r : RegIdx) (v : Nat) (s : State) :
    ((s.writeReg r v).readReg r).toNat = v % 32768 := by
  rw [State.readReg_writeReg_same, BitVec.toNat_ofNat]

/-- A number a register can hold is stored as it is. -/
theorem State.readReg_writeReg_value (r : RegIdx) (x : Value) (s : State) :
    (s.writeReg r x.toNat).readReg r = x := by
  rw [State.readReg_writeReg_same, BitVec.ofNat_toNat, BitVec.setWidth_eq]

/-- Writing a register and moving on is all that a `WritesRegister` instruction does. -/
theorem writesRegister_advance (r : RegIdx) (v n : Nat) (s : State) :
    WritesRegister r (v % 32768) n s ((s.writeReg r v).advance n) where
  result := State.readReg_writeReg_toNat r v s
  others _ hq := State.readReg_writeReg_other v s hq
  frame := rfl

theorem writesRegister_advance_value (r : RegIdx) (x : Value) (n : Nat) (s : State) :
    WritesRegister r x.toNat n s ((s.writeReg r x.toNat).advance n) := by
  have h := writesRegister_advance r x.toNat n s
  rwa [Nat.mod_eq_of_lt x.isLt] at h

/-! ### What can stand on the stack (R136) -/

/-- A new top is a value that PUSH has pushed or the return address of a CALL. -/
theorem Effect.push_or_call_of_new_top {i : Instr} {s t : State} (he : Effect i s t) {w : Word}
    (h : t.stack = s.stack ++ [w]) :
    (∃ a x, i = .push a ∧ w = valueWord x) ∨ (∃ o, i = .call o ∧ w = s.after 2) := by
  have hlen : t.stack.length = s.stack.length + 1 := by rw [h, List.length_append, List.length_singleton]
  cases he with
  | @pushed a x heq hx hroom => exact .inl ⟨a, x, heq, (List.append_singleton_inj.mp h).2.symm⟩
  | @called o x heq hx hroom => exact .inr ⟨o, heq, (List.append_singleton_inj.mp h).2.symm⟩
  | @popped _ below _ _ hs | @returned below _ _ hs =>
    rw [hs, List.length_append] at hlen
    change below.length = below.length + 1 + 1 at hlen
    omega
  | _ => exact absurd hlen (Nat.succ_ne_self _).symm

theorem valueWord_ne_32768 (x : Value) : valueWord x ≠ 32768 := by
  intro h
  have hle := valueWord_le x
  rw [h] at hle
  exact absurd hle (by decide)

/-- The address two words on is 32768 at 32766 alone; no other 16-bit pc wraps to it. -/
theorem State.pc_of_after_two {s : State} (h : s.after 2 = 32768) : s.pc.toNat = 32766 := by
  unfold State.after at h
  bv_omega

/-- Settles O20: PUSH's value has 15 bits, so a new top of 32768 is a CALL's return address; and 32768 mod 32768 is 0. -/
theorem only32766CallPushes32768 : Obligations.Only32766CallPushes32768 := by
  refine ⟨fun i s t hexec hstack => ?_, fun s r below hs => ⟨_, exec_pop_of_top hs, ?_⟩⟩
  · rcases (exec_effect hexec).push_or_call_of_new_top hstack with ⟨a, x, -, hw⟩ | ⟨o, rfl, hw⟩
    · exact absurd hw.symm (valueWord_ne_32768 x)
    · exact ⟨⟨o, rfl⟩, State.pc_of_after_two hw.symm⟩
  · exact BitVec.eq_of_toNat_eq (State.readReg_writeReg_toNat r 32768 { s with stack := below })

/-! ### The instructions -/

/-- Settles O17: a value fits the register, so R133's copy is exact. -/
theorem setCopiesValue : Obligations.SetCopiesValue := by
  refine fun s d a => ⟨rfl, firstFailingOperandFaults _ s, ?_⟩
  rintro r x rfl hx
  exact ⟨_, exec_set_of_value hx, writesRegister_advance_value r x 3 s⟩

/-- Settles O18: R130's two cases, full and with room, are `exec_push_of_full` and `exec_push_of_room`. -/
theorem pushPutsValueOnTop : Obligations.PushPutsValueOnTop := by
  refine fun s a => ⟨rfl, firstFailingOperandFaults _ s, fun x hx => ⟨exec_push_of_full hx, fun hroom => ?_⟩⟩
  rw [exec_push_of_room hx hroom, valueWord_eq_ofNat]
  rfl

/-- Settles O19: POP is a register write in the state whose top has been taken off. -/
theorem popStoresTopMod32768 : Obligations.PopStoresTopMod32768 := by
  refine fun s d => ⟨rfl, firstFailingOperandFaults _ s, ?_⟩
  rintro r rfl
  refine ⟨exec_pop_of_empty, fun below e hs => ?_⟩
  have hw := writesRegister_advance r e.toNat 2 { s with stack := below }
  exact ⟨_, exec_pop_of_top hs, hw.result, hw.others, hw.frame⟩

/-- Settles O21: POP takes off the entry that PUSH has just put on, and that entry fits a register. -/
theorem pushThenPopRestoresStack : Obligations.PushThenPopRestoresStack := by
  intro s a x r hx hroom
  refine ⟨_, _, exec_push_of_room hx hroom, exec_pop_of_top rfl, ?_, rfl⟩
  rw [valueWord_toNat, State.readReg_advance]
  exact State.readReg_writeReg_value r x _

end Sys2Proof.Machine
end

/-! ## The ALU (42_alu.md)

Each operation's result as a number, `alu_…_toNat`, and what the two shapes of ALU instructions do with a result. The
operand faults are those of every instruction, `firstFailingOperandFaults`; MOD's own is `exec_mod_of_zero`. -/

section
namespace Sys2Proof.Machine

/-! ### The function (R151) -/

/-- A comparison's result is 1 or 0 as a number too. -/
theorem conditionValue_decide_toNat (p : Prop) [Decidable p] :
    (conditionValue (decide p)).toNat = if p then 1 else 0 := by
  by_cases h : p
  · rw [decide_eq_true h, if_pos h]
    rfl
  · rw [decide_eq_false h, if_neg h]
    rfl

/-- EQ compares the values as bits; they are equal exactly when their numbers are. -/
theorem alu_eq_toNat (x y : Value) : (alu .eq x y).toNat = if x.toNat = y.toNat then 1 else 0 := by
  have hbits : (x == y) = decide (x.toNat = y.toNat) := by
    rw [beq_eq_decide, decide_eq_decide, BitVec.toNat_inj]
  rw [alu, hbits, conditionValue_decide_toNat]

theorem alu_gt_toNat (x y : Value) : (alu .gt x y).toNat = if x.toNat > y.toNat then 1 else 0 :=
  conditionValue_decide_toNat (y.toNat < x.toNat)

/-- A number taken mod 32768 fits 15 bits, so the cut to 15 bits leaves it. -/
theorem ofNat_mod_32768_toNat (n : Nat) : (BitVec.ofNat 15 (n % 32768)).toNat = n % 32768 := by
  rw [BitVec.toNat_ofNat, Nat.mod_mod]

theorem alu_add_toNat (x y : Value) : (alu .add x y).toNat = (x.toNat + y.toNat) % 32768 :=
  ofNat_mod_32768_toNat _

theorem alu_mult_toNat (x y : Value) : (alu .mult x y).toNat = (x.toNat * y.toNat) % 32768 :=
  ofNat_mod_32768_toNat _

/-- A remainder is at most the dividend, so it fits 15 bits. -/
theorem alu_mod_toNat (x y : Value) : (alu .mod x y).toNat = x.toNat % y.toNat := by
  have hfits : x.toNat % y.toNat < 2 ^ 15 := (Nat.mod_le _ _).trans_lt x.isLt
  rw [alu, BitVec.toNat_ofNat, Nat.mod_eq_of_lt hfits]

theorem alu_and_toNat (x y : Value) : (alu .and x y).toNat = x.toNat &&& y.toNat := BitVec.toNat_and x y

theorem alu_or_toNat (x y : Value) : (alu .or x y).toNat = x.toNat ||| y.toNat := BitVec.toNat_or x y

/-- The 15-bit complement of `x` is `32767 - x`. -/
theorem alu_not_toNat (x y : Value) : (alu .not x y).toNat = 32767 - x.toNat := BitVec.toNat_not

/-! ### What the instructions do with it (R150) -/

/-- An ALU result fits the register, so it is stored as it is. -/
theorem aluWrite_writesRegister {op : AluOp} {x y : Value} {v : Nat} (hv : (alu op x y).toNat = v) (n : Nat)
    (r : RegIdx) (s : State) : ∃ t, aluWrite op n r x y s = .next t ∧ WritesRegister r v n s t :=
  ⟨_, rfl, hv ▸ writesRegister_advance_value r (alu op x y) n s⟩

section Resolved
variable {s : State} {d a b : Operand} {r : RegIdx} {x y : Value}

theorem aluBinary_of_values (hd : d = .register r) (hx : resolveValue s a = some x) (hy : resolveValue s b = some y)
    (act : RegIdx → Value → Value → StepOutcome) : aluBinary d a b s act = act r x y := by
  rw [hd, aluBinary, withDest_register, withValue_some hx, withValue_some hy]

/-- What EQ, GT, ADD, MULT, AND and OR do when their operands resolve. -/
theorem aluBinary_writesRegister {op : AluOp} {v : Nat} (hd : d = .register r) (hx : resolveValue s a = some x)
    (hy : resolveValue s b = some y) (hv : (alu op x y).toNat = v) :
    ∃ t, (aluBinary d a b s fun r x y => aluWrite op 4 r x y s) = .next t ∧ WritesRegister r v 4 s t := by
  rw [aluBinary_of_values hd hx hy]
  exact aluWrite_writesRegister hv 4 r s

theorem exec_mod_of_ne_zero (hd : d = .register r) (hx : resolveValue s a = some x) (hy : resolveValue s b = some y)
    (hne : y ≠ 0) : exec (.mod d a b) s = aluWrite .mod 4 r x y s := by
  rw [exec, execMod, aluBinary_of_values hd hx hy, if_neg hne]

theorem exec_not_of_value (hx : resolveValue s a = some x) :
    exec (.not (.register r) a) s = aluWrite .not 3 r x 0 s := by
  rw [exec, execNot, withDest_register, withValue_some hx]

end Resolved

/-! ### The instructions -/

/-- Settles O22: bits are equal exactly when the numbers are (R152). -/
theorem eqWritesEquality : Obligations.EqWritesEquality :=
  fun s _ _ _ => ⟨rfl, firstFailingOperandFaults _ s, fun _ x y hd hx hy =>
    aluBinary_writesRegister hd hx hy (alu_eq_toNat x y)⟩

/-- Settles O23: the order is that of the numbers (R153). -/
theorem gtWritesUnsignedOrder : Obligations.GtWritesUnsignedOrder :=
  fun s _ _ _ => ⟨rfl, firstFailingOperandFaults _ s, fun _ x y hd hx hy =>
    aluBinary_writesRegister hd hx hy (alu_gt_toNat x y)⟩

/-- Settles O24: the sum is exact before it is taken mod 32768 (R154). -/
theorem addWritesSumMod32768 : Obligations.AddWritesSumMod32768 :=
  fun s _ _ _ => ⟨rfl, firstFailingOperandFaults _ s, fun _ x y hd hx hy =>
    aluBinary_writesRegister hd hx hy (alu_add_toNat x y)⟩

/-- Settles O25: the product is exact before it is taken mod 32768 (R155). -/
theorem multWritesProductMod32768 : Obligations.MultWritesProductMod32768 :=
  fun s _ _ _ => ⟨rfl, firstFailingOperandFaults _ s, fun _ x y hd hx hy =>
    aluBinary_writesRegister hd hx hy (alu_mult_toNat x y)⟩

/-- Settles O26: R156's two cases, a divisor of 0 and any other, are `exec_mod_of_zero` and `exec_mod_of_ne_zero`. -/
theorem modWritesRemainder : Obligations.ModWritesRemainder := by
  refine fun s d a b => ⟨rfl, firstFailingOperandFaults _ s, ?_⟩
  rintro r x y rfl hx hy
  constructor
  · intro hzero
    obtain rfl : y = 0 := BitVec.eq_of_toNat_eq hzero
    exact exec_mod_of_zero hx hy
  · intro hne
    rw [exec_mod_of_ne_zero rfl hx hy (mt (congrArg BitVec.toNat) hne)]
    exact aluWrite_writesRegister (alu_mod_toNat x y) 4 r s

/-- Settles O27: the and of the bits is the and of the numbers (R157). -/
theorem andWritesBitwiseAnd : Obligations.AndWritesBitwiseAnd :=
  fun s _ _ _ => ⟨rfl, firstFailingOperandFaults _ s, fun _ x y hd hx hy =>
    aluBinary_writesRegister hd hx hy (alu_and_toNat x y)⟩

/-- Settles O28: the or of the bits is the or of the numbers (R158). -/
theorem orWritesBitwiseOr : Obligations.OrWritesBitwiseOr :=
  fun s _ _ _ => ⟨rfl, firstFailingOperandFaults _ s, fun _ x y hd hx hy =>
    aluBinary_writesRegister hd hx hy (alu_or_toNat x y)⟩

/-- Settles O29: the complement of 15 bits is 32767 minus the number (R159). -/
theorem notWritesComplement : Obligations.NotWritesComplement := by
  refine fun s d a => ⟨rfl, firstFailingOperandFaults _ s, ?_⟩
  rintro r x rfl hx
  rw [exec_not_of_value hx]
  exact aluWrite_writesRegister (alu_not_toNat x 0) 3 r s

/-! ### The laws of R160 -/

/-- NOT of the register that holds `x`'s complement gives `x` back, as 32767 - (32767 - x) = x. -/
theorem exec_not_of_complement {s : State} {r q : RegIdx} {x : Value} (hr : (s.readReg r).toNat = 32767 - x.toNat) :
    ∃ t, exec (.not (.register q) (.register r)) s = .next t ∧ t.readReg q = x := by
  obtain ⟨-, -, hnot⟩ := notWritesComplement s (.register q) (.register r)
  obtain ⟨t, hexec, hwrites⟩ := hnot q (s.readReg r) rfl rfl
  refine ⟨t, hexec, BitVec.eq_of_toNat_eq ?_⟩
  have hx := x.isLt
  rw [hwrites.result, hr]
  omega

/-- Settles O30: ADD and MULT are O24 and O25, and a register holds 15 bits; NOT undoes NOT by O29, taken twice. -/
theorem sourceLawsOfTheAlu : Obligations.SourceLawsOfTheAlu := by
  intro s r q a b x y hx hy
  have hrange : ∀ t : State, (t.readReg r).toNat ≤ 32767 := fun t => Nat.le_of_lt_succ (t.readReg r).isLt
  obtain ⟨-, -, hadd⟩ := addWritesSumMod32768 s (.register r) a b
  obtain ⟨-, -, hmult⟩ := multWritesProductMod32768 s (.register r) a b
  obtain ⟨-, -, hnot⟩ := notWritesComplement s (.register r) a
  obtain ⟨sum, hsum, hwsum⟩ := hadd r x y rfl hx hy
  obtain ⟨prod, hprod, hwprod⟩ := hmult r x y rfl hx hy
  obtain ⟨t, ht, hwt⟩ := hnot r x rfl hx
  obtain ⟨u, hu, hux⟩ := exec_not_of_complement (q := q) hwt.result
  exact ⟨⟨sum, hsum, hwsum.result, hrange sum⟩, ⟨prod, hprod, hwprod.result, hrange prod⟩, t, u, ht, hu, hux⟩

end Sys2Proof.Machine
end

/-! ## Control transfer (43_control.md)

One equation for what each jump, CALL and RET do when nothing faults or stops. The other cases are
`exec_call_of_full`, `exec_ret_of_empty` and, for every instruction, `firstFailingOperandFaults`. -/

section
namespace Sys2Proof.Machine

/-! ### What they do -/

/-- Any number but 0 is true (R182, R183). -/
theorem testsTrue_iff (v : Value) : testsTrue v = true ↔ ¬ v.toNat = 0 := by
  rw [testsTrue, bne_iff_ne, ne_eq, ← BitVec.toNat_inj]
  rfl

section Resolved
variable {s : State} {a o : Operand} {v x : Value}

theorem exec_jmp_of_address (hx : resolveAddress s o = some x) :
    exec (.jmp o) s = .next (s.setPc (valueWord x)) := by
  rw [exec, execJmp, withAddress_some hx]

/-- Both branches of a JT set the pc and nothing else. -/
theorem exec_jt_of_values (hv : resolveValue s a = some v) (hx : resolveAddress s o = some x) :
    exec (.jt a o) s = .next (s.setPc (if ¬ v.toNat = 0 then valueWord x else s.after 3)) := by
  rw [exec, execJt, withValue_some hv, withAddress_some hx, if_congr (testsTrue_iff v) rfl rfl,
    apply_ite (State.setPc · s)]
  rfl

/-- JF has the branches of JT the other way round. -/
theorem exec_jf_of_values (hv : resolveValue s a = some v) (hx : resolveAddress s o = some x) :
    exec (.jf a o) s = .next (s.setPc (if v.toNat = 0 then valueWord x else s.after 3)) := by
  rw [exec, execJf, withValue_some hv, withAddress_some hx, if_congr (testsTrue_iff v) rfl rfl, ite_not,
    apply_ite (State.setPc · s)]
  rfl

theorem exec_call_of_room (hx : resolveAddress s o = some x) (hroom : s.cfg.stackCapacity ≠ some s.stack.length) :
    exec (.call o) s = .next ((s.pushEntry (s.after 2)).setPc (valueWord x)) := by
  rw [exec, execCall, withAddress_some hx, withPush_room hroom]

end Resolved

theorem exec_ret_of_top {s : State} {below : List Word} {e : Word} (hs : s.stack = below ++ [e]) :
    exec .ret s = .next (State.setPc e { s with stack := below }) := by
  rw [exec, execRet, State.popEntry_of_top hs]

/-! ### The instructions -/

/-- Settles O31: R180's stop is the whole meaning of HALT, in every state. -/
theorem haltStopsCleanly : Obligations.HaltStopsCleanly :=
  ⟨rfl, fun _ => rfl⟩

/-- Settles O32: the target is 15 bits wide, and pc holds the same number on 16. -/
theorem jmpSetsPc : Obligations.JmpSetsPc := by
  refine fun s t => ⟨rfl, firstFailingOperandFaults _ s, fun x hx => ?_⟩
  rw [exec_jmp_of_address hx, valueWord_eq_ofNat]
  rfl

/-- Settles O33: the target resolves whether or not the jump is taken, so a bad one faults in both cases (D5). -/
theorem jtJumpsIfNonZero : Obligations.JtJumpsIfNonZero := by
  refine fun s a t => ⟨rfl, firstFailingOperandFaults _ s, fun v x hv hx => ?_⟩
  rw [exec_jt_of_values hv hx, valueWord_eq_ofNat]
  rfl

/-- Settles O34: as JT, with the branches the other way round. -/
theorem jfJumpsIfZero : Obligations.JfJumpsIfZero := by
  refine fun s a t => ⟨rfl, firstFailingOperandFaults _ s, fun v x hv hx => ?_⟩
  rw [exec_jf_of_values hv hx, valueWord_eq_ofNat]
  rfl

/-- Settles O35: R130's two cases, full and with room, are `exec_call_of_full` and `exec_call_of_room`. -/
theorem callPushesReturnAddress : Obligations.CallPushesReturnAddress := by
  refine fun s t => ⟨rfl, firstFailingOperandFaults _ s, fun x hx => ⟨exec_call_of_full hx, fun hroom => ?_⟩⟩
  rw [exec_call_of_room hx hroom, valueWord_eq_ofNat]
  rfl

/-- Settles O36: R131's two cases, a top entry and none, are `exec_ret_of_top` and `exec_ret_of_empty`. -/
theorem retPopsIntoPcOrHalts : Obligations.RetPopsIntoPcOrHalts :=
  ⟨rfl, fun _ => ⟨fun _ _ hs => exec_ret_of_top hs, fun hs => exec_ret_of_empty hs⟩⟩

/-- Settles O37: moving on by one word is the whole meaning of NOOP. -/
theorem noopOnlyAdvances : Obligations.NoopOnlyAdvances :=
  ⟨rfl, fun _ => rfl⟩

/-- Settles O38: the top of the stack that CALL left is its return address, and RET takes just that entry off. -/
theorem callThenBalancedRetResumes : Obligations.CallThenBalancedRetResumes :=
  fun _ _ _ hx hroom => ⟨_, exec_call_of_room hx hroom, fun _ hu => ⟨_, exec_ret_of_top hu, rfl, rfl⟩⟩

end Sys2Proof.Machine
end

/-! ## Memory and ports (44_memory_io.md)

One equation for what RMEM, OUT and each of IN's two moves do when nothing faults; WMEM's is `exec_wmem`. The operand
faults are those of every instruction, `firstFailingOperandFaults`. -/

section
namespace Sys2Proof.Machine

/-! ### What they do -/

section Resolved
variable {s : State} {a : Operand} {r : RegIdx} {x : Value}

theorem exec_rmem_of_value (hx : resolveValue s a = some x) :
    exec (.rmem (.register r) a) s = .next ((s.writeReg r (s.memRead x).toNat).advance 3) := by
  rw [exec, execRmem, withDest_register, withValue_some hx]

theorem exec_out_of_value (hx : resolveValue s a = some x) :
    exec (.out a) s = .next ((s.sendByte (BitVec.ofNat 8 (x.toNat % 256))).advance 2) := by
  rw [exec, execOut, withValue_some hx]

theorem exec_in_register : exec (.inp (.register r)) s = .next (s.startIn r) := by
  rw [exec, execIn, withDest_register]

end Resolved

/-- IN's second move takes the first byte offered (R203). -/
theorem step_of_offered_byte {s : State} {c : Byte} {rest : List Byte} (hr : s.run = .waitInput)
    (hin : s.input = c :: rest) : step s = .next (s.finishIn c rest) := by
  rw [step_waiting hr, completeIn, hin]

/-- The completion writes the latched register as every instruction writes one. -/
theorem State.readReg_finishIn (c : Byte) (rest : List Byte) (s : State) (q : RegIdx) :
    (s.finishIn c rest).readReg q = (s.writeReg s.inDest c.toNat).readReg q :=
  State.readReg_congr rfl q

/-! ### The instructions -/

/-- Settles O39: the cell has 16 bits, and the register write takes it mod 32768 (R25). -/
theorem rmemReadsCellMod32768 : Obligations.RmemReadsCellMod32768 := by
  refine fun s d a => ⟨rfl, firstFailingOperandFaults _ s, ?_⟩
  rintro r x rfl hx
  exact ⟨_, exec_rmem_of_value hx, writesRegister_advance r (s.memRead x).toNat 3 s⟩

/-- Settles O40: the two laws of a memory write, and 16 bits hold the 15-bit value as it is (R54). -/
theorem wmemWritesOneCell : Obligations.WmemWritesOneCell := by
  refine fun s a b => ⟨rfl, firstFailingOperandFaults _ s, fun x y hm hx hy => ?_⟩
  refine ⟨_, exec_wmem hx hy, ?_, fun c hc => Memory.read_write_other s.mem (valueWord y) hc, rfl⟩
  have hcell : (s.mem.write x.toNat (valueWord y)).read x.toNat = valueWord y := Memory.read_write_same hm _ _
  exact (congrArg BitVec.toNat hcell).trans (valueWord_toNat y)

/-- Settles O41: sending after the earlier output and moving on are OUT's whole meaning. -/
theorem outSendsLowByte : Obligations.OutSendsLowByte :=
  fun s _ => ⟨rfl, firstFailingOperandFaults _ s, fun _ hx => exec_out_of_value hx⟩

/-- Settles O42: the two moves of R203 are `exec_in_register` and `step_of_offered_byte`; a byte is below 32768, so the
register holds it as it is. -/
theorem inWaitsThenStoresTheByte : Obligations.InWaitsThenStoresTheByte := by
  refine ⟨fun s d => ⟨rfl, firstFailingOperandFaults _ s, ?_⟩, fun s c rest hr hin => ?_⟩
  · rintro r rfl
    exact exec_in_register
  · refine ⟨_, step_of_offered_byte hr hin, ?_, fun q hq => ?_, rfl⟩
    · have hfits : c.toNat < 32768 := c.isLt.trans (by decide)
      rw [State.readReg_finishIn, State.readReg_writeReg_toNat, Nat.mod_eq_of_lt hfits]
    · rw [State.readReg_finishIn, State.readReg_writeReg_other _ s hq]

/-! ### The output (R204) -/

/-- Settles O49: the stops of fetch and decode and IN's completion send nothing; an instruction sends only as an OUT. -/
theorem outputOnlyGrowsAndOnlyByOut : Obligations.OutputOnlyGrowsAndOnlyByOut := by
  intro s t hstep
  cases step_effect hstep with
  | executed hr hd hi hpc hexec he =>
    rcases he.output_cases with hsame | ⟨a, b, rfl, hsent⟩
    · exact .inl hsame
    · exact .inr ⟨a, b, [], hd, hr, hsent⟩
  | endOfMemory | invalidOpcode | fetchPast | completed => exact .inl rfl

end Sys2Proof.Machine
end

/-! ## Ends and load errors as the host sees them (60_exceptions.md R221, R225, R226)

The codes of R225 fall into three ranges, one for each way a run stands: not ended, HALTED, FAULTED. A record that
agrees with `run` has its code in the range of `run`. -/

section
namespace Sys2Proof.Machine

/-! ### The status outputs -/

@[simp] theorem State.statusOutputs_run (s : State) : s.statusOutputs.run = s.run.bits := rfl

@[simp] theorem State.statusOutputs_stopCode (s : State) : s.statusOutputs.stopCode = s.stop.code.bits := rfl

section Agreeing
variable {s : State} (h : s.stopAgrees = true)
include h

theorem State.stopCode_of_not_ended (hr : s.run = .running ∨ s.run = .waitInput) :
    s.statusOutputs.stopCode.toNat = 0 := by
  have hzero : s.stop = StopRecord.zero := by
    rcases hr with hr | hr
    · simpa [State.stopAgrees_of_running hr] using h
    · simpa [State.stopAgrees_of_waiting hr] using h
  simp [hzero, StopRecord.zero, StopCode.bits]

/-- The record of a clean end holds a clean halt's code (R221, R223). -/
theorem State.stopCode_of_halted (hr : s.run = .halted) :
    1 ≤ s.statusOutputs.stopCode.toNat ∧ s.statusOutputs.stopCode.toNat ≤ 3 := by
  rw [State.stopAgrees, hr] at h
  rw [State.statusOutputs_stopCode]
  cases hc : s.stop.code with
  | halt | retEmpty | endOfMemory => decide
  | _ => simp [hc] at h

/-- The record of a fault holds one of the seven fault codes (R221, R224). -/
theorem State.stopCode_of_faulted (hr : s.run = .faulted) :
    16 ≤ s.statusOutputs.stopCode.toNat ∧ s.statusOutputs.stopCode.toNat ≤ 22 := by
  rw [State.stopAgrees, hr] at h
  rw [State.statusOutputs_stopCode]
  cases hc : s.stop.code with
  | none | halt | retEmpty | endOfMemory => simp [hc] at h
  | _ => decide

end Agreeing

/-- Settles O55: `run` picks the range its code lies in, and the three ranges are apart. -/
theorem statusCodesSayHowARunEnds : Obligations.StatusCodesSayHowARunEnds := by
  intro s hinv
  cases hr : s.run with
  | running =>
    have hrun : s.statusOutputs.run.toNat = 0 := by simp [hr, Run.bits]
    have hcode := State.stopCode_of_not_ended hinv.stop (.inl hr)
    omega
  | waitInput =>
    have hrun : s.statusOutputs.run.toNat = 1 := by simp [hr, Run.bits]
    have hcode := State.stopCode_of_not_ended hinv.stop (.inr hr)
    omega
  | halted =>
    have hrun : s.statusOutputs.run.toNat = 2 := by simp [hr, Run.bits]
    have hcode := State.stopCode_of_halted hinv.stop hr
    omega
  | faulted =>
    have hrun : s.statusOutputs.run.toNat = 3 := by simp [hr, Run.bits]
    have hcode := State.stopCode_of_faulted hinv.stop hr
    omega

/-! ### Images that do not load -/

/-- A load error is the launch's answer: no run starts (R226). -/
theorem launch_of_loadError {image : List Byte} {e : LoadError} (h : loadImage image = .error e) (cfg : Config)
    (input : List Byte) : launch cfg image input = .error e := by
  rw [launch, h]

theorem loadImage_of_odd {image : List Byte} (hodd : image.length % 2 = 1) :
    loadImage image = .error .malformedImage := by
  rcases imageWords_cases image with ⟨-, hnone⟩ | ⟨ws, -, hlen, -⟩
  · rw [loadImage, hnone]
  · omega

/-- Half of more than 65536 bytes are more words than the memory has cells. -/
theorem loadImage_of_tooLarge {image : List Byte} (heven : image.length % 2 = 0) (hlarge : 65536 < image.length) :
    loadImage image = .error .imageTooLarge := by
  rcases imageWords_cases image with ⟨hodd, -⟩ | ⟨ws, hws, hlen, -⟩
  · omega
  · simp only [loadImage, hws]
    exact if_neg (by omega)

/-- Settles O58: neither image loads, and the launch answers with the load's error. -/
theorem badImagesAreNotLaunched : Obligations.BadImagesAreNotLaunched :=
  fun cfg _ input =>
    ⟨fun hodd => launch_of_loadError (loadImage_of_odd hodd) cfg input,
      fun heven hlarge => launch_of_loadError (loadImage_of_tooLarge heven hlarge) cfg input⟩

end Sys2Proof.Machine
end

/-! ## What a loaded image holds (70_reset_and_hazards.md R262, 20_memory.md R52)

The loaded memory is the image's words read from address 0, so the byte order and the zeros past the image are facts
about that list of words. -/

section
namespace Sys2Proof.Machine

/-- The cells of a loaded memory are the words of its image, and 0 where they end. -/
theorem read_of_loadImage {image : List Byte} {m : Memory} (h : loadImage image = .ok m) :
    ∃ ws, imageWords image = some ws ∧ ∀ k, m.read k = ws.getD k 0 := by
  unfold loadImage at h
  split at h
  · cases h
  next ws hws =>
    split at h
    · cases h
      exact ⟨ws, hws, fun k => by simpa using Memory.read_ofWords ws 0 k⟩
    · cases h

/-- Settles O57: cell `k` is word `k` of the image, which is its bytes `2k` and `2k + 1` or lies past its end. -/
theorem imageLoadsLittleEndian : Obligations.ImageLoadsLittleEndian := by
  intro image heven hle
  obtain ⟨m, hm⟩ := loadImage_of_even heven hle
  obtain ⟨ws, hws, hread⟩ := read_of_loadImage hm
  rcases imageWords_cases image with ⟨hodd, -⟩ | ⟨_, hws', hlen, hbytes⟩
  · omega
  · cases hws.symm.trans hws'
    refine ⟨m, hm, loadImage_wf hm, fun k lo hi hlo hhi => ?_, fun k hk => ?_⟩
    · rw [hread, hbytes k lo hi hlo hhi]
    · rw [hread, List.getD_eq_default _ _ (by omega)]

end Sys2Proof.Machine
end
